-- ==== Sys2Proof/Word.lean ====
section
/-! DEFINITION. The two word types of the machine: the byte and the 17-bit instruction-pointer value.

The spec has no wider datum (spec/20_memory.md R33, R36), so nothing else stands here. -/

namespace Sys2Proof

/-- A byte, always read as an unsigned integer 0 to 255 (spec/00_scope.md R4). -/
abbrev Byte := BitVec 8

/-- A value of `IP` or a request address of the byte-read interface: 17 bits, unsigned
(spec/10_state.md R12, spec/20_memory.md R31; decision D1). -/
abbrev Addr := BitVec 17

end Sys2Proof
end

