-- ==== Sys2Proof/Config.lean ====
section
/-! DEFINITION. The constants of spec/00_scope.md R3 (decision D21 fixes them as constants of the spec).

There is no free value: spec/93_implementation_defined.md says that no behaviour is left as
'any value'. -/

namespace Sys2Proof.Config

/-- `MEM_SIZE`: number of bytes of memory. -/
def memSize : Nat := 65536

/-- `ENTRY_ADDR`: reset value of `IP`. -/
def entryAddr : Addr := 0x7C00#17

/-- `LOAD_BASE`: where the loader writes image byte 0. -/
def loadBase : Nat := 0x7C00

/-- `SIG_OFFSET`: offset of the first signature byte from `LOAD_BASE`. -/
def sigOffset : Nat := 0x1FE

/-- `SIG_ADDR0`: `LOAD_BASE + SIG_OFFSET`. -/
def sigAddr0 : Addr := BitVec.ofNat 17 (loadBase + sigOffset)

/-- `SIG_ADDR1`: `LOAD_BASE + SIG_OFFSET + 1`. -/
def sigAddr1 : Addr := BitVec.ofNat 17 (loadBase + sigOffset + 1)

/-- `SIG_BYTE0`: required value of the byte at `SIG_ADDR0`. -/
def sigByte0 : Byte := 0x55#8

/-- `SIG_BYTE1`: required value of the byte at `SIG_ADDR1`. -/
def sigByte1 : Byte := 0xAA#8

/-- `MAX_IMAGE_SIZE`: the largest image the loader accepts, in bytes. -/
def maxImageSize : Nat := 512

/-- `OP_NEARJUMP`: opcode byte of the near-jump form. -/
def opNearJump : Byte := 0xEB#8

/-- `OP_PADDING`: opcode byte of the padding form. -/
def opPadding : Byte := 0x00#8

/-- `OFF_SELFHALT`: the offset byte that makes a near-jump the self-loop halt. -/
def offSelfHalt : Byte := 0xFE#8

/-- What a byte of memory nothing has written holds: the reset contents (spec/10_state.md R11, R23). -/
def emptyByte : Byte := 0x00#8

/-- The largest value `IP` can ever hold (spec/10_state.md R12). -/
def maxIp : Nat := 0x100FF

/-- The most steps one engine loop can take (spec/40_engine_loop.md R75). -/
def maxLoopSteps : Nat := 33793

end Sys2Proof.Config
end

