-- ==== Sys2Proof/Machine/State.lean ====
section
/-! DEFINITION. The state of one machine, which is the tuple of spec/10_state.md R10 and the host's side as
plain data, its value after reset (R23), and the reasons a step can stop. -/

namespace Sys2Proof.Machine

/-- `PHASE`, the boot sequencer's phase (spec/10_state.md R17). -/
inductive Phase where
  /-- `RESET`: constructed, the host may load; nothing emitted yet. -/
  | reset
  /-- `EXEC`: the signature was valid; the engine loop runs or has just halted. -/
  | exec
  /-- `NOBOOT`: the signature was absent; terminal. -/
  | noBoot
  /-- `DONE`: halted by self-loop or unsupported opcode, waiting event emitted; terminal. -/
  | done
  /-- `FAULTED`: halted by an address fault; terminal. -/
  | faulted
  deriving DecidableEq, Repr

/-- `CAUSE`, why `RUN` was cleared (spec/10_state.md R18). -/
inductive Cause where
  | none
  | selfLoop
  | unsupportedOpcode
  | addressFault
  deriving DecidableEq, Repr

/-- One token on the block's output, the closed alphabet of spec/10_state.md R19. -/
inductive Event where
  | banner
  | bootError
  | booting
  /-- `DIAG_UNSUPPORTED(op, ip)`: the opcode byte and `IP[15:0]` at the failing step. -/
  | diagUnsupported (op : Byte) (ip : BitVec 16)
  /-- `ADDR_FAULT(addr)`: the out-of-range address. -/
  | addrFault (addr : Addr)
  | waiting
  deriving DecidableEq, Repr

/-- What the loader reports to the host when it fails (spec/70_reset_and_hazards.md R142, R144, R145). -/
inductive LoadError where
  | imageTooLarge
  | outOfRange
  deriving DecidableEq, Repr

/-- What the host does at one transition (spec/10_state.md R22); `idle` leaves that transition to the
block. DESIGN CHOICE, log entry 1. -/
inductive HostAction where
  | idle
  | reset
  | write (addr : Nat) (byte : Byte)
  | loadImage (bytes : List Byte) (base : Nat)
  | start
  deriving DecidableEq, Repr

/-- Memory: the bytes that differ from `Config.emptyByte`, by strictly rising address; an unlisted address
holds `Config.emptyByte` (spec/10_state.md R11). -/
abbrev Memory := List Host.Cell

/-- The addresses of a list of cells are strictly rising from `lo`, inside memory, and no cell holds the
empty byte. -/
def Memory.wfFrom (lo : Nat) : Memory → Bool
  | [] => true
  | (a, b) :: m =>
    decide (lo ≤ a) && decide (a < Config.memSize) && b != Config.emptyByte && Memory.wfFrom (a + 1) m

/-- The canonical form of a memory. -/
def Memory.wf (m : Memory) : Bool := Memory.wfFrom 0 m

/-- The state (spec/10_state.md R10). The last two fields are the model's own: the host's side. -/
structure State where
  /-- `MEM` (R11). -/
  mem : Memory
  /-- `IP` (R12). -/
  ip : Addr
  /-- `RUN` (R15): true is 1, `Running`. -/
  run : Bool
  /-- `PHASE` (R17). -/
  phase : Phase
  /-- `CAUSE` (R18). -/
  cause : Cause
  /-- `OUT` (R19), oldest first. -/
  out : List Event
  /-- The model's own: what the host will do at the coming transitions, first first; after its end the host
  is idle. Log entry 1. -/
  hostInput : List HostAction
  /-- The model's own: the loader failures reported to the host, oldest first. Log entry 4. -/
  loadErrors : List LoadError
  deriving DecidableEq, Repr

/-- The machine right after reset (spec/10_state.md R23); the host has given nothing. -/
def State.reset : State where
  mem := []
  ip := Config.entryAddr
  run := true
  phase := .reset
  cause := .none
  out := []
  hostInput := []
  loadErrors := []

/-- Why the machine stops. -/
inductive Fault where
  /-- A stuck state: raised by `finish` in phase `EXEC` with `RUN` 0 and `CAUSE` `NONE`, where spec/44 R106
  and R107 and spec/40 R70 enable no transition. No reachable state is one (spec/10_state.md R18). Safe. -/
  | noTransition
  deriving DecidableEq, Repr

/-- Why the machine gives no meaning. -/
inductive Refusal where
  /-- Raised by an arm of `exec` that has no meaning yet. Safe. -/
  | notModelled (mnemonic : String)
  /-- Raised by a host `write` or `load_image` outside phase `RESET`, which spec/70 R150 puts outside the
  spec (treatment 'refuse', spec/93 U5). Safe. -/
  | memoryWriteAfterStart
  deriving DecidableEq, Repr

end Sys2Proof.Machine
end

