-- ==== Sys2Proof/Machine/Flags.lean ====
section
/-! DEFINITION. The one flag `RUN` with the cause that is written beside it (spec/10_state.md R15, R18), and
the codes of the two status registers. There are no condition codes. -/

namespace Sys2Proof.Machine

/-- Clear `RUN` and record why, in one transition (spec/10_state.md R18). -/
def State.halt (c : Cause) (s : State) : State := { s with run := false, cause := c }

/-- The 3-bit code of a phase (spec/10_state.md R17). -/
def phaseCode : Phase → BitVec 3
  | .reset => 0#3
  | .exec => 1#3
  | .noBoot => 2#3
  | .done => 3#3
  | .faulted => 4#3

/-- The 2-bit code of a cause (spec/10_state.md R18). -/
def causeCode : Cause → BitVec 2
  | .none => 0#2
  | .selfLoop => 1#2
  | .unsupportedOpcode => 2#2
  | .addressFault => 3#2

/-- A terminal phase: only reset leaves it (spec/10_state.md R17). -/
def isTerminal : Phase → Bool
  | .reset => false
  | .exec => false
  | .noBoot => true
  | .done => true
  | .faulted => true

end Sys2Proof.Machine
end

