-- ==== Sys2Proof/Machine/Operands.lean ====
section
/-! DEFINITION. The one operand form and the numbers the block computes: the displacement of a near-jump
(spec/30_encoding.md R54), the two sums of spec/41_near_jump.md R81, and the fields of the diagnostic. -/

namespace Sys2Proof.Machine

/-- `zext_17`: a byte as an unsigned 17-bit integer (spec/00_scope.md R4). -/
def zext17 (b : Byte) : Addr := b.setWidth 17

/-- The target of `NEARJUMP off` at `ip` (spec/41_near_jump.md R82). -/
def jumpTarget (ip : Addr) (off : Byte) : Addr := ip + 2#17 + zext17 off

/-- The address after a `PADDING` at `ip` (spec/42_padding.md R90). -/
def nextByte (ip : Addr) : Addr := ip + 1#17

/-- `IP[15:0]`, the `ip` field of the diagnostic (spec/43_unsupported.md R95). -/
def diagIp (ip : Addr) : BitVec 16 := ip.extractLsb' 0 16

/-- The lowest `n` hexadecimal digits of a number as values 0 to 15, the most significant first. -/
def hexDigits : Nat → Nat → List Nat
  | 0, _ => []
  | n + 1, v => hexDigits n (v / 16) ++ [v % 16]

/-- The digits the console sink renders of a diagnostic: two of the byte and four of the address
(spec/10_state.md R19); letter case and words are the sink's (spec/93 U6). -/
def diagDigits : Event → Option (List Nat × List Nat)
  | .diagUnsupported op ip => some (hexDigits 2 op.toNat, hexDigits 4 ip.toNat)
  | .banner => none
  | .bootError => none
  | .booting => none
  | .addrFault _ => none
  | .waiting => none

end Sys2Proof.Machine
end

