-- ==== Sys2Proof/Machine/Ops.lean ====
section
/-! DEFINITION. The named operations over memory and state, and TAKING AN ADDRESS FAULT, the machine's one
exception entry (spec/60_exceptions.md R123). There is no return from an exception (R129). -/

namespace Sys2Proof.Machine

/-- The byte at an address. -/
def Memory.read : Memory → Nat → Byte
  | [], _ => Config.emptyByte
  | (a, b) :: m, x => if x = a then b else Memory.read m x

/-- Store a byte, keeping the canonical form: a byte equal to the empty byte is not listed. -/
def Memory.write : Memory → Nat → Byte → Memory
  | [], x, v => if v = Config.emptyByte then [] else [(x, v)]
  | (a, b) :: m, x, v =>
    if x < a then
      if v = Config.emptyByte then (a, b) :: m else (x, v) :: (a, b) :: m
    else if x = a then
      if v = Config.emptyByte then m else (x, v) :: m
    else (a, b) :: Memory.write m x v

/-- Store bytes at ascending addresses from `base` (spec/70_reset_and_hazards.md R143). -/
def Memory.copy (m : Memory) (base : Nat) : List Byte → Memory
  | [] => m
  | b :: bs => Memory.copy (m.write base b) (base + 1) bs

/-- `MemRead(a, 1)`, the byte-read interface: the byte, or the fault indication with the address
(spec/20_memory.md R31, R32). -/
def memRead (m : Memory) (a : Addr) : Except Addr Byte :=
  if a.toNat < Config.memSize then .ok (m.read a.toNat) else .error a

/-- `IP <- a`. -/
def State.setIp (a : Addr) (s : State) : State := { s with ip := a }

/-- `emit E`: append an event to `OUT` (spec/10_state.md R19). -/
def State.emit (e : Event) (s : State) : State := { s with out := s.out ++ [e] }

/-- `PHASE <- p`. -/
def State.enter (p : Phase) (s : State) : State := { s with phase := p }

/-- Replace memory. -/
def State.setMem (m : Memory) (s : State) : State := { s with mem := m }

/-- Set the host's coming actions. -/
def State.setHostInput (h : List HostAction) (s : State) : State := { s with hostInput := h }

/-- Report a loader failure to the host. -/
def State.report (e : LoadError) (s : State) : State := { s with loadErrors := s.loadErrors ++ [e] }

/-- Taking an address fault: the writes that replace every other write of the step
(spec/60_exceptions.md R123). -/
def State.takeAddressFault (a : Addr) (s : State) : State := (s.emit (.addrFault a)).halt .addressFault

end Sys2Proof.Machine
end

