-- ==== Sys2Proof/Machine/NearJump.lean ====
section
/-! DEFINITION. The near-jump form: `NEARJUMP` and `SELFHALT` (spec/41_near_jump.md). Both meanings are the part
of STEP after the offset byte has been read (R80). -/

namespace Sys2Proof.Machine

/-- `NEARJUMP off` (spec/41_near_jump.md R82): `IP <- IP + 2 + zext_17(off)`, nothing else. -/
def execNearJump (off : Byte) (s : State) : Host.Outcome State Fault Refusal :=
  .next (s.setIp (jumpTarget s.ip off))

/-- `SELFHALT` (spec/41_near_jump.md R85): `RUN <- 0`, `CAUSE <- SELF_LOOP`; no target is computed
(spec/90_conflicts.md C1). -/
def execSelfHalt (s : State) : Host.Outcome State Fault Refusal :=
  .next (s.halt .selfLoop)

end Sys2Proof.Machine
end

