-- ==== Sys2Proof/Machine/Padding.lean ====
section
/-! DEFINITION. The padding form (spec/42_padding.md). -/

namespace Sys2Proof.Machine

/-- `PADDING` (spec/42_padding.md R90): `IP <- IP + 1`, nothing else. -/
def execPadding (s : State) : Host.Outcome State Fault Refusal :=
  .next (s.setIp (nextByte s.ip))

end Sys2Proof.Machine
end

