-- ==== Sys2Proof/Machine/Unsupported.lean ====
section
/-! DEFINITION. Unsupported opcodes (spec/43_unsupported.md). -/

namespace Sys2Proof.Machine

/-- `UNSUPPORTED` (spec/43_unsupported.md R95): report the byte and the address it was fetched from, and
stop; `IP` is not written. -/
def execUnsupported (b : Byte) (s : State) : Host.Outcome State Fault Refusal :=
  .next ((s.emit (.diagUnsupported b (diagIp s.ip))).halt .unsupportedOpcode)

end Sys2Proof.Machine
end

