-- ==== Sys2Proof/Syntax.lean ====
section
/-! DEFINITION. The instructions: one constructor per row of spec/opcode_table.json, and the three
opcode classes of spec/30_encoding.md R55. -/

namespace Sys2Proof

/-- An instruction (spec/30_encoding.md R55, the opcode map in full). -/
inductive Instr where
  /-- `PADDING`, the byte `00` (spec/42_padding.md R90). -/
  | padding
  /-- `SELFHALT`, the bytes `EB FE` (spec/41_near_jump.md R85). -/
  | selfHalt
  /-- `NEARJUMP off`, the bytes `EB off` with `off` not 0xFE (spec/41_near_jump.md R82). -/
  | nearJump (off : Byte)
  /-- `UNSUPPORTED`, one byte `b` other than 00 and EB (spec/43_unsupported.md R95). -/
  | unsupported (b : Byte)
  deriving DecidableEq, Repr

/-- The closed set `NearJump, Padding, Unsupported(b)` that `Decode` answers (spec/30_encoding.md R55). -/
inductive OpClass where
  | nearJump
  | padding
  | unsupported (b : Byte)
  deriving DecidableEq, Repr

end Sys2Proof
end

