-- ==== Sys2Proof/Machine/Dispatch.lean ====
section
/-! DEFINITION. The one dispatch: one arm per instruction. -/

namespace Sys2Proof.Machine

def exec (i : Instr) (s : State) : Host.Outcome State Fault Refusal :=
  match i with
  | .padding => Sys2Proof.Machine.execPadding s
  | .selfHalt => Sys2Proof.Machine.execSelfHalt s
  | .nearJump off => Sys2Proof.Machine.execNearJump off s
  | .unsupported b => Sys2Proof.Machine.execUnsupported b s

end Sys2Proof.Machine
end

