-- ==== Sys2Proof/WellFormed.lean ====
section
/-! DEFINITION. Which instruction terms stand for an instruction: the operand ranges that
spec/opcode_table.json and spec/30_encoding.md R55 give. -/

namespace Sys2Proof

/-- The operand check: the offset 0xFE is `SELFHALT`, not `NEARJUMP` (spec/30_encoding.md R52, R58), and
the bytes 00 and EB are supported (R53). -/
def Instr.wf : Instr → Bool
  | .padding => true
  | .selfHalt => true
  | .nearJump off => off != Config.offSelfHalt
  | .unsupported b => b != Config.opPadding && b != Config.opNearJump

/-- `i` is an instruction of the set. -/
abbrev Instr.WellFormed (i : Instr) : Prop := i.wf = true

end Sys2Proof
end

