-- ==== Sys2Proof/Decode.lean ====
section
/-! DEFINITION. The decoder, total on any bytes and rejecting by name, the encoder written from the same
formats (spec/30_encoding.md R50 to R56), and the reading of a word of spec/opcode_table.json (R59). -/

namespace Sys2Proof

/-- Why a list of bytes holds no instruction. Every opcode byte has a meaning (spec/30_encoding.md R55),
so only missing bytes are rejected. The engine never meets these: it fetches from memory, where a missing
byte is an address fault. -/
inductive DecodeReject where
  /-- There is no opcode byte. -/
  | noOpcode
  /-- The opcode is 0xEB and there is no offset byte after it. -/
  | noOffset
  deriving DecidableEq, Repr

/-- `Decode(b)`, the class of an opcode byte (spec/30_encoding.md R55). -/
def classOf (b : Byte) : OpClass :=
  if b = Config.opNearJump then .nearJump
  else if b = Config.opPadding then .padding
  else .unsupported b

/-- The instruction of format `J` an offset byte selects (spec/41_near_jump.md R80). -/
def nearJumpForm (off : Byte) : Instr :=
  if off = Config.offSelfHalt then .selfHalt else .nearJump off

/-- The length in bytes an opcode byte tells (spec/30_encoding.md R56). -/
def lengthOf (b : Byte) : Nat :=
  if b = Config.opNearJump then 2 else 1

/-- The instruction at the head of a list of bytes in fetch order, with the bytes after it. The offset is
looked for only after the opcode 0xEB (spec/30_encoding.md R59, last sentence). -/
def decode : List Byte → Except DecodeReject (Instr × List Byte)
  | [] => .error .noOpcode
  | op :: rest =>
    match classOf op with
    | .padding => .ok (.padding, rest)
    | .unsupported b => .ok (.unsupported b, rest)
    | .nearJump =>
      match rest with
      | [] => .error .noOffset
      | off :: rest' => .ok (nearJumpForm off, rest')

/-- The bytes of an instruction in fetch order (spec/30_encoding.md R51 to R53). -/
def encode : Instr → List Byte
  | .padding => [Config.opPadding]
  | .selfHalt => [Config.opNearJump, Config.offSelfHalt]
  | .nearJump off => [Config.opNearJump, off]
  | .unsupported b => [b]

/-- The lowest `n` bytes of the number `w`, the most significant first: the fetch order of a table word
(spec/30_encoding.md R59). -/
def wordBytes : Nat → Nat → List Byte
  | 0, _ => []
  | n + 1, w => wordBytes n (w / 256) ++ [BitVec.ofNat 8 w]

/-- The bytes in fetch order of an instruction whose table word of `nbits` bits is `w`, filled up with
zero bytes to the longest instruction, two bytes. Spec/opcode_table.json numbers a two-byte word as
`byte0 * 256 + byte1` (R59), so the first byte is the most significant. DEDUCED, log entry 7. -/
def tableBytes (nbits w : Nat) : List Byte :=
  wordBytes ((nbits + 7) / 8) w ++ List.replicate (2 - (nbits + 7) / 8) 0x00#8

/-- The instruction the decoder reads from a word of spec/opcode_table.json. -/
def decodeTableWord (nbits w : Nat) : Option Instr :=
  match decode (tableBytes nbits w) with
  | .ok (i, _) => some i
  | .error _ => none

end Sys2Proof
end

