-- ==== Sys2Proof/Machine/Fetch.lean ====
section
/-! DEFINITION. Fetching an instruction: the reads of spec/40_engine_loop.md R70, and placing an instruction
where the next step fetches it. -/

namespace Sys2Proof.Machine

/-- The instruction at `IP`, or the address of the first read that faults. The offset is read only after the
opcode 0xEB (spec/40_engine_loop.md R70, spec/20_memory.md R33). -/
def fetch (s : State) : Except Addr Instr :=
  match memRead s.mem s.ip with
  | .error a => .error a
  | .ok op =>
    match classOf op with
    | .padding => .ok .padding
    | .unsupported b => .ok (.unsupported b)
    | .nearJump =>
      match memRead s.mem (s.ip + 1#17) with
      | .error a => .error a
      | .ok off => .ok (nearJumpForm off)

/-- The bytes memory has from `IP` upward, at most two of them, fewer at the top of memory. -/
def bytesAhead (s : State) : List Byte :=
  (List.range (min 2 (Config.memSize - s.ip.toNat))).map fun k => s.mem.read (s.ip.toNat + k)

/-- `s` with `bytes` stored from `IP` and the engine enabled to fetch them at the very next step: phase `EXEC`,
`RUN` 1, no host action in the way. Where `IP` leaves no room for two bytes it is set to the entry address.
Log entry 8. -/
def placeForFetch (bytes : List Byte) (s : State) : State :=
  let ip := if s.ip.toNat + 2 ≤ Config.memSize then s.ip else Config.entryAddr
  { s with
    mem := s.mem.copy ip.toNat bytes
    ip := ip
    run := true
    phase := .exec
    cause := .none
    hostInput := match s.hostInput with
      | [] => []
      | h :: t => .idle :: h :: t }

end Sys2Proof.Machine
end

