-- ==== Sys2Proof/Machine/Boot.lean ====
section
/-! DEFINITION. The boot-signature validator and the sequencer's transitions `BOOT` and `FINISH`
(spec/44_boot_sequence.md). -/

namespace Sys2Proof.Machine

/-- `SigValid(MEM)` (spec/44_boot_sequence.md R100): both bytes are read, in this order (decision D9). Neither
read can fault; a faulting read would be no signature. -/
def sigValid (m : Memory) : Bool :=
  match memRead m Config.sigAddr0, memRead m Config.sigAddr1 with
  | .ok s0, .ok s1 => s0 == Config.sigByte0 && s1 == Config.sigByte1
  | .ok _, .error _ => false
  | .error _, _ => false

/-- The transition `BOOT` (spec/44_boot_sequence.md R101, R103, R104). -/
def boot (s : State) : State :=
  if sigValid s.mem then
    ((s.emit .banner).emit .booting).enter .exec
  else
    ((s.emit .banner).emit .bootError).enter .noBoot

/-- The transition `FINISH`, normal and after an address fault (spec/44_boot_sequence.md R106, R107). With
`CAUSE` `NONE` neither is enabled: a stuck state, log entry 10. -/
def finish (s : State) : Host.Outcome State Fault Refusal :=
  match s.cause with
  | .selfLoop => .next ((s.emit .waiting).enter .done)
  | .unsupportedOpcode => .next ((s.emit .waiting).enter .done)
  | .addressFault => .next (s.enter .faulted)
  | .none => .fault .noTransition

end Sys2Proof.Machine
end

