-- ==== Sys2Proof/Machine/HostPort.lean ====
section
/-! DEFINITION. The host's side of the interface (spec/10_state.md R22): reset, the loader's `write` and
`load_image`, `start`, and the status read. -/

namespace Sys2Proof.Machine

/-- `write(a, b)` (spec/70_reset_and_hazards.md R142). -/
def writeByte (a : Nat) (b : Byte) (m : Memory) : Except LoadError Memory :=
  if a < Config.memSize then .ok (m.write a b) else .error .outOfRange

/-- `load_image(bytes, base)` (spec/70_reset_and_hazards.md R143 to R145): the size check, then the range check,
then the copy (decision D20). -/
def loadBytes (bytes : List Byte) (base : Nat) (m : Memory) : Except LoadError Memory :=
  if Config.maxImageSize < bytes.length then .error .imageTooLarge
  else if Config.memSize < base + bytes.length then .error .outOfRange
  else .ok (m.copy base bytes)

/-- A loader operation's result on the machine: allowed in phase `RESET` only (spec/70 R150); a failure leaves
the block unchanged and is reported to the host (spec/60 R120). -/
def hostLoad (r : Except LoadError Memory) (s : State) : Host.Outcome State Fault Refusal :=
  match s.phase with
  | .reset =>
    match r with
    | .ok m => .next (s.setMem m)
    | .error e => .next (s.report e)
  | .exec => .refused .memoryWriteAfterStart
  | .noBoot => .refused .memoryWriteAfterStart
  | .done => .refused .memoryWriteAfterStart
  | .faulted => .refused .memoryWriteAfterStart

/-- `start`: `BOOT` in phase `RESET`, no effect in any other (spec/44_boot_sequence.md R101; decision D11). -/
def hostStart (s : State) : State :=
  match s.phase with
  | .reset => boot s
  | .exec => s
  | .noBoot => s
  | .done => s
  | .faulted => s

/-- `reset` from any state (spec/70_reset_and_hazards.md R140). The host's own coming actions and the reports it
has had are not the block's state and stay. -/
def hostReset (s : State) : State :=
  { State.reset with hostInput := s.hostInput, loadErrors := s.loadErrors }

/-- What a status read answers (spec/10_state.md R22). -/
structure Status where
  phase : BitVec 3
  cause : BitVec 2
  run : BitVec 1
  ip : Addr
  deriving DecidableEq, Repr

/-- The status read: `PHASE`, `CAUSE`, `RUN`, `IP`, at any time and without effect (spec/10_state.md R16, R22). -/
def status (s : State) : Status where
  phase := phaseCode s.phase
  cause := causeCode s.cause
  run := BitVec.ofBool s.run
  ip := s.ip

end Sys2Proof.Machine
end

