-- ==== Sys2Proof/Machine/Sequencer.lean ====
section
/-! DEFINITION. One transition of the machine: the engine's STEP (spec/40_engine_loop.md R70), the block's choice
of transition by phase, and the host's actions (the phase graph, spec/44_boot_sequence.md R110). -/

namespace Sys2Proof.Machine

/-- STEP without its guard: fetch and decode, then execute or take the address fault
(spec/40_engine_loop.md R70). -/
def engineStep (s : State) : Host.Outcome State Fault Refusal :=
  match fetch s with
  | .ok i => exec i s
  | .error a => .next (s.takeAddressFault a)

/-- The block's enabled transition: STEP in `EXEC` while `RUN` is 1, then FINISH. Elsewhere none is enabled
and the state stays (spec/44_boot_sequence.md R110; log entry 2). -/
def blockTransition (s : State) : Host.Outcome State Fault Refusal :=
  match s.phase with
  | .exec => if s.run then engineStep s else finish s
  | .reset => .next s
  | .noBoot => .next s
  | .done => .next s
  | .faulted => .next s

/-- What one host action does; `idle` leaves the transition to the block. -/
def hostTransition (h : HostAction) (s : State) : Host.Outcome State Fault Refusal :=
  match h with
  | .idle => blockTransition s
  | .reset => .next (hostReset s)
  | .write a b => hostLoad (writeByte a b s.mem) s
  | .loadImage bytes base => hostLoad (loadBytes bytes base s.mem) s
  | .start => .next (hostStart s)

/-- One transition: the host's next action if it has one, else the block's. -/
def transition (s : State) : Host.Outcome State Fault Refusal :=
  match s.hostInput with
  | [] => blockTransition s
  | h :: t => hostTransition h (s.setHostInput t)

end Sys2Proof.Machine
end

