-- ==== Sys2Proof/Machine/Step.lean ====
section
/-! DEFINITION. The step function and the placing of an instruction for it to fetch. -/

namespace Sys2Proof.Machine

/-- One transition of the machine. -/
def step (s : State) : Host.Outcome State Fault Refusal := transition s

/-- `s` with the instruction of a table word stored where the very next step fetches. Log entry 8. -/
def State.withFetchWord (s : State) (nbits w : Nat) : State := placeForFetch (tableBytes nbits w) s

end Sys2Proof.Machine
end

