-- ==== Sys2Proof/Machine/Assembler.lean ====
section
/-! DEFINITION. The assembler notation of spec/30_encoding.md R58: lines and the bytes they place. It is notation of
the spec's examples and no part of the block. -/

namespace Sys2Proof.Machine

/-- One line of the notation (spec/30_encoding.md R58). -/
inductive AsmLine where
  | padding
  /-- `NEARJUMP n`. -/
  | nearJump (n : Nat)
  | selfHalt
  /-- `.byte b1, b2, ...`. -/
  | bytes (bs : List Byte)
  /-- `.org a`. -/
  | org (a : Nat)
  deriving DecidableEq, Repr

/-- The bytes of a line that is no `.org`; `NEARJUMP n` is refused for 254 and above 255 (R58). -/
def asmBytes : AsmLine → Option (List Byte)
  | .padding => some (encode .padding)
  | .nearJump n => if n < 256 ∧ n ≠ 254 then some (encode (.nearJump (BitVec.ofNat 8 n))) else none
  | .selfHalt => some (encode .selfHalt)
  | .bytes bs => some bs
  | .org _ => some []

/-- Store the lines' bytes from address `addr`; `.org` moves the address on. DESIGN CHOICE, log entry 18, where
spec/30_encoding.md R58 is silent: the address the lines start from, a later line overwriting an earlier one, and a
line whose bytes would stand at or past `Config.memSize`, which is refused. -/
def assemble (m : Memory) (addr : Nat) : List AsmLine → Option Memory
  | [] => some m
  | .org a :: ls => assemble m a ls
  | l :: ls =>
    match asmBytes l with
    | none => none
    | some bs =>
      if addr + bs.length ≤ Config.memSize then assemble (m.copy addr bs) (addr + bs.length) ls else none

end Sys2Proof.Machine
end

