-- ==== Sys2Proof/Safety.lean ====
section
/-! DEFINITION. What counts as a good run, and the invariant of the whole machine, in the terms the statements use. -/

namespace Sys2Proof.Machine

/-- The run is over (spec/44_boot_sequence.md R111). -/
abbrev State.Ended (s : State) : Prop := isTerminal s.phase = true

/-- The state is a good one: no address fault has been taken. A state with `CAUSE` `ADDRESS_FAULT` is never a
good final state (spec/60_exceptions.md R123). -/
abbrev State.Safe (s : State) : Prop := s.cause ≠ .addressFault ∧ s.phase ≠ .faulted

/-- The host leaves the coming transition to the block. -/
def State.hostQuiet (s : State) : Bool :=
  match s.hostInput with
  | [] => true
  | .idle :: _ => true
  | .reset :: _ => false
  | .write _ _ :: _ => false
  | .loadImage _ _ :: _ => false
  | .start :: _ => false

/-- The state the block's transition works on: the host's turn is used up. -/
def State.afterTurn (s : State) : State := s.setHostInput s.hostInput.tail

/-- STEP is enabled (spec/40_engine_loop.md R70) and the host leaves it the transition. -/
abbrev State.StepEnabled (s : State) : Prop := s.phase = .exec ∧ s.run = true ∧ s.hostQuiet = true

/-- The coming transition is the host's `reset`. -/
def State.resetComing (s : State) : Bool :=
  match s.hostInput with
  | .reset :: _ => true
  | [] => false
  | .idle :: _ => false
  | .write _ _ :: _ => false
  | .loadImage _ _ :: _ => false
  | .start :: _ => false

/-- Every byte of memory reads as before. -/
abbrev SameBytes (s t : State) : Prop := ∀ a, t.mem.read a = s.mem.read a

/-- What no instruction and no fault entry touches: every byte of memory, the phase, the loader's reports. -/
abbrev SameOutside (s t : State) : Prop :=
  SameBytes s t ∧ t.phase = s.phase ∧ t.loadErrors = s.loadErrors

/-- From `s` to `t` an address fault at `a` has been taken and nothing else (spec/60_exceptions.md R123). -/
abbrev FaultTaken (a : Addr) (s t : State) : Prop :=
  t.out = s.out ++ [.addrFault a] ∧ t.run = false ∧ t.cause = .addressFault ∧ t.ip = s.ip ∧ SameOutside s t

/-- `IP` is an address of memory, so the opcode fetch succeeds. -/
abbrev State.InMemory (s : State) : Prop := s.ip.toNat < Config.memSize

/-- The byte at `IP`. -/
abbrev State.opcode (s : State) : Byte := s.mem.read s.ip.toNat

/-- The byte after the byte at `IP`. -/
abbrev State.offset (s : State) : Byte := s.mem.read (s.ip.toNat + 1)

/-- `n` transitions of the machine, ending early at a fault or a refusal: the host's `Core.run` at this machine
(`runSteps_eq_core_run`). -/
def runSteps : Nat → State → Host.Outcome State Fault Refusal
  | 0, s => .next s
  | n + 1, s =>
    match step s with
    | .next t => runSteps n t
    | .fault r => .fault r
    | .refused r => .refused r

/-- The address of an address fault taken with this `IP` (spec/60_exceptions.md R123, R124). -/
def faultAddress (ip : Addr) : Addr := if ip.toNat < Config.memSize then 0x10000#17 else ip

/-- The event of the engine's halt: none after a self-loop, the diagnostic, or the address fault
(spec/44_boot_sequence.md R111). -/
def haltEvents (s : State) : List Event :=
  match s.cause with
  | .none => []
  | .selfLoop => []
  | .unsupportedOpcode => [.diagUnsupported (s.mem.read s.ip.toNat) (diagIp s.ip)]
  | .addressFault => [.addrFault (faultAddress s.ip)]

/-- The trace that belongs to a phase and a cause (spec/44_boot_sequence.md R111, R103, R104). -/
def expectedOut (s : State) : List Event :=
  match s.phase with
  | .reset => []
  | .noBoot => [.banner, .bootError]
  | .exec => [.banner, .booting] ++ haltEvents s
  | .done => [.banner, .booting] ++ haltEvents s ++ [.waiting]
  | .faulted => [.banner, .booting] ++ haltEvents s

/-- Memory at `IP` bears the cause out (spec/10_state.md R18). -/
abbrev CauseJustified (s : State) : Prop :=
  match s.cause with
  | .none => True
  | .selfLoop => fetch s = .ok .selfHalt
  | .unsupportedOpcode => fetch s = .ok (.unsupported (s.mem.read s.ip.toNat))
  | .addressFault => fetch s = .error (faultAddress s.ip)

/-- Phase, cause, entry and signature fit together (spec/44_boot_sequence.md R103, R104, R106, R107). -/
abbrev PhaseConsistent (s : State) : Prop :=
  match s.phase with
  | .reset => s.cause = .none ∧ s.ip = Config.entryAddr
  | .noBoot => s.cause = .none ∧ s.ip = Config.entryAddr ∧ sigValid s.mem = false
  | .exec => sigValid s.mem = true
  | .done => (s.cause = .selfLoop ∨ s.cause = .unsupportedOpcode) ∧ sigValid s.mem = true
  | .faulted => s.cause = .addressFault ∧ sigValid s.mem = true

/-- The range `IP` stays in (spec/10_state.md R12). -/
abbrev State.IpInRange (s : State) : Prop :=
  Config.entryAddr.toNat ≤ s.ip.toNat ∧ s.ip.toNat ≤ Config.maxIp

/-- `RUN == 1` if and only if `CAUSE == NONE` (spec/10_state.md R18). -/
abbrev State.RunIffNoCause (s : State) : Prop := s.run = true ↔ s.cause = .none

/-- The invariant of the whole machine. -/
structure State.Inv (s : State) : Prop where
  memWf : s.mem.wf = true
  ipInRange : s.IpInRange
  runIffNoCause : s.RunIffNoCause
  causeJustified : CauseJustified s
  phaseConsistent : PhaseConsistent s
  outExpected : s.out = expectedOut s

end Sys2Proof.Machine
end

