-- ==== Sys2Proof/Certificates/Slice0/Obligations.lean ====
section
/-! DEFINITION. The statements about the machine. Each docstring names the rule of spec/ it states. -/

open Sys2Proof Sys2Proof.Machine

/-! ## Reset -/

/-- What reset leaves (spec/10_state.md R23). -/
def Obligations.ResetLeavesTheSpecsValues : Prop :=
  (∀ a, State.reset.mem.read a = 0x00#8) ∧ State.reset.ip = 0x7C00#17 ∧ State.reset.run = true ∧
    State.reset.phase = .reset ∧ State.reset.cause = .none ∧ State.reset.out = []

/-- `reset` from any state, and that nothing else leaves a terminal phase or sets `RUN`
(spec/70_reset_and_hazards.md R140). -/
def Obligations.ResetFromAnyStateAndNothingElse : Prop :=
  (∀ s : State, s.resetComing = true → ∃ t, step s = .next t ∧ (∀ a, t.mem.read a = 0x00#8) ∧ t.ip = 0x7C00#17 ∧
    t.run = true ∧ t.phase = .reset ∧ t.cause = .none ∧ t.out = []) ∧
  (∀ s t : State, step s = .next t → isTerminal s.phase = true → t.phase ≠ s.phase → s.resetComing = true) ∧
  (∀ s t : State, step s = .next t → s.run = false → t.run = true → s.resetComing = true)

/-! ## Encoding -/

/-- The opcode map in full (spec/30_encoding.md R55): the class of every opcode byte, the bytes each class takes,
and that the offset byte alone tells `SELFHALT` from `NEARJUMP`. -/
def Obligations.OpcodeMapIsTotalAndExclusive : Prop :=
  (∀ b : Byte, (classOf b = .nearJump ↔ b = 0xEB#8) ∧ (classOf b = .padding ↔ b = 0x00#8) ∧
    ∀ x, classOf b = .unsupported x ↔ x = b ∧ b ≠ 0xEB#8 ∧ b ≠ 0x00#8) ∧
  (∀ rest : List Byte, decode (0x00#8 :: rest) = .ok (.padding, rest)) ∧
  (∀ (b : Byte) (rest : List Byte), b ≠ 0x00#8 → b ≠ 0xEB#8 → decode (b :: rest) = .ok (.unsupported b, rest)) ∧
  (∀ (off : Byte) (rest : List Byte), decode (0xEB#8 :: off :: rest) =
    .ok (if off = 0xFE#8 then .selfHalt else .nearJump off, rest))

/-- Words written out from the formats of spec/30_encoding.md decode to what they stand for. -/
def Obligations.HandWrittenWordsDecode : Prop :=
  decode [0b00000000#8] = .ok (.padding, []) ∧
  decode [0b11101011#8, 0b11111110#8] = .ok (.selfHalt, []) ∧
  decode [0b11101011#8, 0b10000000#8] = .ok (.nearJump 128#8, []) ∧
  decode [0b11101011#8, 0b11111111#8, 0b00000000#8] = .ok (.nearJump 255#8, [0x00#8]) ∧
  decode [0b01010101#8] = .ok (.unsupported 0x55#8, []) ∧
  decode [0b11101100#8, 0b11111110#8] = .ok (.unsupported 0xEC#8, [0xFE#8])

/-- Decoding the encoding of a well-formed instruction gives it back, whatever follows. -/
def Obligations.DecodeOfEncodeIsTheInstruction : Prop :=
  ∀ (i : Instr) (rest : List Byte), i.WellFormed → decode (encode i ++ rest) = .ok (i, rest)

/-- Whatever decodes is the encoding of a well-formed instruction and no other bytes are used. -/
def Obligations.EncodeOfDecodeIsTheBytes : Prop :=
  ∀ (bs : List Byte) (i : Instr) (rest : List Byte), decode bs = .ok (i, rest) →
    i.WellFormed ∧ encode i ++ rest = bs

/-- No encoding is the beginning of another. -/
def Obligations.EncodingsArePrefixFree : Prop :=
  ∀ (i j : Instr) (r r' : List Byte), i.WellFormed → j.WellFormed → encode i ++ r = encode j ++ r' →
    i = j ∧ r = r'

/-- The first byte tells how many bytes an instruction has (spec/30_encoding.md R56), and only missing bytes are
rejected. -/
def Obligations.FirstByteTellsTheLength : Prop :=
  (∀ (b : Byte) (bs : List Byte) (i : Instr) (rest : List Byte), decode (b :: bs) = .ok (i, rest) →
    bs.length + 1 = (if b = 0xEB#8 then 2 else 1) + rest.length) ∧
  (∀ (bs : List Byte) (e : DecodeReject), decode bs = .error e → bs = [] ∨ bs = [0xEB#8])

/-- A table word is read in fetch order (spec/30_encoding.md R59): byte 0 is its high byte. -/
def Obligations.TableWordsAreInFetchOrder : Prop :=
  (∀ b0 b1 : Byte, decodeTableWord 16 (b0.toNat * 256 + b1.toNat) = (decode [b0, b1]).toOption.map Prod.fst) ∧
  (∀ b0 : Byte, decodeTableWord 8 b0.toNat = (decode [b0, 0x00#8]).toOption.map Prod.fst)

/-- The assembler notation (spec/30_encoding.md R58): `NEARJUMP n` assembles exactly for `n` at most 255 other
than 254, to bytes that decode to it. -/
def Obligations.AssemblerNotationDecodesBack : Prop :=
  (∀ n, (asmBytes (.nearJump n)).isSome = true ↔ n ≤ 255 ∧ n ≠ 254) ∧
  (∀ n bs, asmBytes (.nearJump n) = some bs →
    ∃ off : Byte, off.toNat = n ∧ bs = [0xEB#8, off] ∧ decode bs = .ok (.nearJump off, [])) ∧
  asmBytes .padding = some [0x00#8] ∧ asmBytes .selfHalt = some [0xEB#8, 0xFE#8]

/-! ## Memory -/

/-- The byte-read interface (spec/20_memory.md R31, R32): the byte inside memory, else the fault with the
address itself. -/
def Obligations.ByteReadsAreBoundsChecked : Prop :=
  ∀ (m : Memory) (a : Addr),
    (a.toNat < 0x10000 → memRead m a = .ok (m.read a.toNat)) ∧ (0x10000 ≤ a.toNat → memRead m a = .error a)

/-- Two canonical memories that read alike are the same data. -/
def Obligations.CanonicalMemoriesAreExtensional : Prop :=
  ∀ m m' : Memory, m.wf = true → m'.wf = true → (∀ a, m.read a = m'.read a) → m = m'

/-- Every transition keeps the canonical form of memory. -/
def Obligations.StepKeepsMemoryCanonical : Prop :=
  ∀ s t : State, step s = .next t → s.mem.wf = true → t.mem.wf = true

/-- Memory is immutable after start but for reset, and a host write there is refused (spec/10_state.md R11,
spec/70_reset_and_hazards.md R150; the refusal is log entry 3). -/
def Obligations.MemoryIsImmutableAfterStart : Prop :=
  (∀ s t : State, step s = .next t → s.phase ≠ .reset → s.resetComing = false → t.mem = s.mem) ∧
  (∀ (s : State) a b rest, s.phase ≠ .reset → s.hostInput = .write a b :: rest →
    step s = .refused .memoryWriteAfterStart) ∧
  (∀ (s : State) bs base rest, s.phase ≠ .reset → s.hostInput = .loadImage bs base :: rest →
    step s = .refused .memoryWriteAfterStart)

/-! ## The loader -/

/-- The host's `write` in phase `RESET` (spec/70_reset_and_hazards.md R142). -/
def Obligations.HostWriteStoresOneByte : Prop :=
  ∀ (s : State) a b rest, s.phase = .reset → s.hostInput = .write a b :: rest →
    (a < 0x10000 → s.mem.wf = true → ∃ t, step s = .next t ∧
      (∀ x, t.mem.read x = if x = a then b else s.mem.read x) ∧
      t.ip = s.ip ∧ t.run = s.run ∧ t.phase = s.phase ∧ t.cause = s.cause ∧ t.out = s.out ∧
      t.loadErrors = s.loadErrors ∧ t.hostInput = rest) ∧
    (0x10000 ≤ a → ∃ t, step s = .next t ∧ t.mem = s.mem ∧
      t.ip = s.ip ∧ t.run = s.run ∧ t.phase = s.phase ∧ t.cause = s.cause ∧ t.out = s.out ∧
      t.loadErrors = s.loadErrors ++ [.outOfRange] ∧ t.hostInput = rest)

/-- `load_image` that succeeds (spec/70_reset_and_hazards.md R143). -/
def Obligations.LoadImageCopiesTheImage : Prop :=
  ∀ (s : State) bs base rest, s.phase = .reset → s.hostInput = .loadImage bs base :: rest → s.mem.wf = true →
    bs.length ≤ 512 → base + bs.length ≤ 65536 → ∃ t, step s = .next t ∧
      (∀ i (h : i < bs.length), t.mem.read (base + i) = bs[i]) ∧
      (∀ a, (a < base ∨ base + bs.length ≤ a) → t.mem.read a = s.mem.read a) ∧
      t.ip = s.ip ∧ t.run = s.run ∧ t.phase = s.phase ∧ t.cause = s.cause ∧ t.out = s.out ∧
      t.loadErrors = s.loadErrors ∧ t.hostInput = rest

/-- `load_image` that fails (spec/70_reset_and_hazards.md R144, R145): the size check comes first, and memory is
left unmodified. That the report is appended to `loadErrors` is the model's form of it, log entry 4. -/
def Obligations.LoadImageFailsWithoutEffect : Prop :=
  ∀ (s : State) bs base rest, s.phase = .reset → s.hostInput = .loadImage bs base :: rest →
    (512 < bs.length → step s = .next { s with hostInput := rest, loadErrors := s.loadErrors ++ [.imageTooLarge] }) ∧
    (bs.length ≤ 512 → 65536 < base + bs.length →
      step s = .next { s with hostInput := rest, loadErrors := s.loadErrors ++ [.outOfRange] })

/-- With the documented loader a bootable image is exactly 512 bytes long and ends in the signature; nothing
loaded is not bootable (spec/44_boot_sequence.md R108). -/
def Obligations.BootableImagesEndInTheSignature : Prop :=
  sigValid State.reset.mem = false ∧
  ∀ bs m, loadBytes bs 0x7C00 State.reset.mem = .ok m →
    (sigValid m = true ↔ bs.length = 512 ∧ bs[510]? = some 0x55#8 ∧ bs[511]? = some 0xAA#8)

/-! ## The boot sequencer -/

/-- The validator (spec/44_boot_sequence.md R100). -/
def Obligations.SignatureIsTheTwoBytes : Prop :=
  ∀ m : Memory, sigValid m = true ↔ m.read 0x7DFE = 0x55#8 ∧ m.read 0x7DFF = 0xAA#8

/-- `BOOT` and the `start` that has no effect (spec/44_boot_sequence.md R101). -/
def Obligations.StartBootsOnlyFromReset : Prop :=
  ∀ (s : State) rest, s.hostInput = .start :: rest → ∃ t, step s = .next t ∧ t.mem = s.mem ∧ t.ip = s.ip ∧ t.run = s.run ∧
    t.cause = s.cause ∧ t.loadErrors = s.loadErrors ∧ t.hostInput = rest ∧
    (s.phase = .reset → sigValid s.mem = true → t.phase = .exec ∧ t.out = s.out ++ [.banner, .booting]) ∧
    (s.phase = .reset → sigValid s.mem = false → t.phase = .noBoot ∧ t.out = s.out ++ [.banner, .bootError]) ∧
    (s.phase ≠ .reset → t.phase = s.phase ∧ t.out = s.out)

/-- `FINISH`, normal end (spec/44_boot_sequence.md R106): what it does, that nothing else enters `DONE`, that `DONE`
is terminal, and the final `OUT`. The last clause is for states that meet the machine's invariant. -/
def Obligations.FinishEmitsWaiting : Prop :=
  (∀ s : State, s.hostQuiet = true → s.phase = .exec → s.run = false →
    (s.cause = .selfLoop ∨ s.cause = .unsupportedOpcode) →
    step s = .next { s with out := s.out ++ [.waiting], phase := .done, hostInput := s.hostInput.tail }) ∧
  (∀ s t : State, step s = .next t → s.phase ≠ .done → t.phase = .done →
    s.hostQuiet = true ∧ s.phase = .exec ∧ s.run = false ∧ (s.cause = .selfLoop ∨ s.cause = .unsupportedOpcode)) ∧
  (∀ s t : State, step s = .next t → s.phase = .done → s.resetComing = false → t.phase = .done ∧ t.out = s.out) ∧
  (∀ s : State, s.Inv → s.phase = .done →
    (s.cause = .selfLoop → s.out = [.banner, .booting, .waiting]) ∧
    (s.cause = .unsupportedOpcode →
      s.out = [.banner, .booting, .diagUnsupported s.opcode (diagIp s.ip), .waiting]))

/-- `FINISH` after an address fault (spec/44_boot_sequence.md R107): what it does, that nothing else enters
`FAULTED`, that `FAULTED` is terminal, and the final `OUT`. The last clause is for states that meet the machine's
invariant. -/
def Obligations.FinishAfterFaultEmitsNothing : Prop :=
  (∀ s : State, s.hostQuiet = true → s.phase = .exec → s.run = false → s.cause = .addressFault →
    step s = .next { s with phase := .faulted, hostInput := s.hostInput.tail }) ∧
  (∀ s t : State, step s = .next t → s.phase ≠ .faulted → t.phase = .faulted →
    s.hostQuiet = true ∧ s.phase = .exec ∧ s.run = false ∧ s.cause = .addressFault) ∧
  (∀ s t : State, step s = .next t → s.phase = .faulted → s.resetComing = false →
    t.phase = .faulted ∧ t.out = s.out) ∧
  (∀ s : State, s.Inv → s.phase = .faulted → s.out = [.banner, .booting, .addrFault (faultAddress s.ip)])

/-- The phase graph, complete (spec/44_boot_sequence.md R110). -/
def Obligations.PhaseGraphIsComplete : Prop :=
  ∀ s t : State, step s = .next t →
    (s.resetComing = true → t.phase = .reset ∧ t.out = []) ∧
    (s.resetComing = false → s.phase = .reset →
      (t.phase = .reset ∧ t.out = s.out) ∨
      (s.hostInput.head? = some .start ∧ sigValid s.mem = false ∧ t.phase = .noBoot ∧
        t.out = s.out ++ [.banner, .bootError]) ∨
      (s.hostInput.head? = some .start ∧ sigValid s.mem = true ∧ t.phase = .exec ∧
        t.out = s.out ++ [.banner, .booting])) ∧
    (s.resetComing = false → s.phase = .exec →
      (t.phase = .exec ∧ t.out = s.out) ∨
      (t.phase = .exec ∧ s.run = true ∧ t.out = s.out ++ [.diagUnsupported s.opcode (diagIp s.ip)]) ∨
      (t.phase = .exec ∧ s.run = true ∧ t.out = s.out ++ [.addrFault (faultAddress s.ip)]) ∨
      (t.phase = .done ∧ s.run = false ∧ (s.cause = .selfLoop ∨ s.cause = .unsupportedOpcode) ∧
        t.out = s.out ++ [.waiting]) ∨
      (t.phase = .faulted ∧ s.run = false ∧ s.cause = .addressFault ∧ t.out = s.out)) ∧
    (s.resetComing = false → isTerminal s.phase = true →
      t.phase = s.phase ∧ t.out = s.out ∧ t.mem = s.mem ∧ t.ip = s.ip ∧ t.run = s.run ∧ t.cause = s.cause)

/-! ## The engine step -/

/-- A step runs the decoded instruction, or takes the address fault where memory ends before the instruction
does; around it the host's idle turn is used up and nothing else (spec/40_engine_loop.md R70). -/
def Obligations.StepRunsTheDecodedInstruction : Prop :=
  ∀ s : State, s.StepEnabled →
    s.afterTurn = { s with hostInput := s.hostInput.tail } ∧
    (∀ i rest, decode (bytesAhead s) = .ok (i, rest) → step s = exec i s.afterTurn) ∧
    (∀ e, decode (bytesAhead s) = .error e →
      step s = .next (s.afterTurn.takeAddressFault (faultAddress s.ip)))

/-- An instruction placed by its table word is what the very next step runs. -/
def Obligations.PlacedWordIsRunNext : Prop :=
  ∀ (s : State) nbits w i, s.mem.wf = true → nbits ≤ 16 → decodeTableWord nbits w = some i →
    step (s.withFetchWord nbits w) = exec i (s.withFetchWord nbits w).afterTurn

/-- `PADDING` (spec/42_padding.md R90): executed, and as a step; from the last byte of memory the next step
faults. -/
def Obligations.PaddingAdvancesByOne : Prop :=
  (∀ s : State, s.InMemory → ∃ t, exec .padding s = .next t ∧ t.ip.toNat = s.ip.toNat + 1 ∧ t.run = s.run ∧
    t.cause = s.cause ∧ t.out = s.out ∧ SameOutside s t ∧ t.hostInput = s.hostInput) ∧
  (∀ s : State, s.StepEnabled → s.InMemory → s.opcode = 0x00#8 → ∃ t, step s = .next t ∧
    t.ip.toNat = s.ip.toNat + 1 ∧ t.run = true ∧ t.cause = s.cause ∧ t.out = s.out ∧ SameOutside s t ∧
    t.hostInput = s.hostInput.tail ∧
    (s.ip.toNat = 0xFFFF → t.hostQuiet = true → ∃ u, step t = .next u ∧ FaultTaken 0x10000#17 t u))

/-- `NEARJUMP` (spec/41_near_jump.md R82): executed, as a step, and its offset fetch at the last byte of memory. -/
def Obligations.NearJumpAddsTwoAndTheOffset : Prop :=
  (∀ (s : State) off, off ≠ 0xFE#8 → s.InMemory → ∃ t, exec (.nearJump off) s = .next t ∧
    t.ip.toNat = s.ip.toNat + 2 + off.toNat ∧ t.run = s.run ∧ t.cause = s.cause ∧ t.out = s.out ∧
    SameOutside s t ∧ t.hostInput = s.hostInput) ∧
  (∀ s : State, s.StepEnabled → s.ip.toNat < 0xFFFF → s.opcode = 0xEB#8 → s.offset ≠ 0xFE#8 → ∃ t, step s = .next t ∧
    t.ip.toNat = s.ip.toNat + 2 + s.offset.toNat ∧ t.run = true ∧ t.cause = s.cause ∧ t.out = s.out ∧
    SameOutside s t ∧ t.hostInput = s.hostInput.tail) ∧
  (∀ s : State, s.StepEnabled → s.ip.toNat = 0xFFFF → s.opcode = 0xEB#8 → ∃ t, step s = .next t ∧
    FaultTaken 0x10000#17 s t)

/-- `SELFHALT` (spec/41_near_jump.md R85): executed, as a step with the waiting event after it, and its offset fetch
at the last byte of memory. -/
def Obligations.SelfHaltStopsTheEngine : Prop :=
  (∀ s : State, ∃ t, exec .selfHalt s = .next t ∧ t.run = false ∧ t.cause = .selfLoop ∧ t.ip = s.ip ∧ t.out = s.out ∧
    SameOutside s t ∧ t.hostInput = s.hostInput) ∧
  (∀ s : State, s.StepEnabled → s.ip.toNat < 0xFFFF → s.opcode = 0xEB#8 → s.offset = 0xFE#8 → ∃ t, step s = .next t ∧
    t.run = false ∧ t.cause = .selfLoop ∧ t.ip = s.ip ∧ t.out = s.out ∧ SameOutside s t ∧
    t.hostInput = s.hostInput.tail ∧
    (t.hostQuiet = true → ∃ u, step t = .next u ∧ u.phase = .done ∧ u.out = t.out ++ [.waiting])) ∧
  (∀ s : State, s.StepEnabled → s.ip.toNat = 0xFFFF → s.opcode = 0xEB#8 → ∃ t, step s = .next t ∧
    FaultTaken 0x10000#17 s t)

/-- `UNSUPPORTED` (spec/43_unsupported.md R95): executed, and as a step with the waiting event after it; the `ip`
field loses nothing of an address of memory. -/
def Obligations.UnsupportedReportsAndStops : Prop :=
  (∀ (s : State) b, b ≠ 0x00#8 → b ≠ 0xEB#8 → ∃ t, exec (.unsupported b) s = .next t ∧
    (∃ d : BitVec 16, d.toNat = s.ip.toNat % 0x10000 ∧ t.out = s.out ++ [.diagUnsupported b d]) ∧ t.run = false ∧
    t.cause = .unsupportedOpcode ∧ t.ip = s.ip ∧ SameOutside s t ∧ t.hostInput = s.hostInput) ∧
  (∀ s : State, s.StepEnabled → s.InMemory → s.opcode ≠ 0x00#8 → s.opcode ≠ 0xEB#8 → ∃ t, step s = .next t ∧
    (∃ d : BitVec 16, d.toNat = s.ip.toNat ∧ t.out = s.out ++ [.diagUnsupported s.opcode d]) ∧ t.run = false ∧
    t.cause = .unsupportedOpcode ∧ t.ip = s.ip ∧ SameOutside s t ∧ t.hostInput = s.hostInput.tail ∧
    (t.hostQuiet = true → ∃ u, step t = .next u ∧ u.phase = .done ∧ u.out = t.out ++ [.waiting]))

/-- The frame of the two forms that move `IP`: nothing but `IP` changes. That it holds also of the ill-formed offset
0xFE, which spec/41_near_jump.md R82 excludes from the near-jump, is the model's (log entry 12, DESIGN CHOICE). -/
def Obligations.JumpFormsChangeOnlyIp : Prop :=
  ∀ (s t : State) i, i = .padding ∨ (∃ off, i = .nearJump off) → exec i s = .next t →
    t.run = s.run ∧ t.cause = s.cause ∧ t.out = s.out ∧ SameOutside s t ∧ t.hostInput = s.hostInput

/-- The frame of the two forms that halt: `IP` and every byte of memory stay, earlier output stays, and only
`UNSUPPORTED` adds to it. That it holds also of the ill-formed bytes 0x00 and 0xEB, which spec/43_unsupported.md R95
excludes, is the model's (log entry 12, DESIGN CHOICE). -/
def Obligations.HaltingFormsChangeOnlyRunCauseOut : Prop :=
  ∀ (s t : State) i, i = .selfHalt ∨ (∃ b, i = .unsupported b) → exec i s = .next t →
    t.ip = s.ip ∧ SameOutside s t ∧ t.hostInput = s.hostInput ∧ (i = .selfHalt → t.out = s.out) ∧
    s.out <+: t.out

/-- The address fault (spec/60_exceptions.md R123): both fetches that can raise it, what it writes, and that
`FAULTED` follows without another event. -/
def Obligations.AddressFaultEntry : Prop :=
  ∀ s : State, s.StepEnabled →
    (0x10000 ≤ s.ip.toNat ∨ (s.ip.toNat = 0xFFFF ∧ s.opcode = 0xEB#8)) →
    ∃ t, step s = .next t ∧ FaultTaken (if 0x10000 ≤ s.ip.toNat then s.ip else 0x10000#17) s t ∧
      t.hostInput = s.hostInput.tail ∧ ¬ t.Safe ∧
      (t.hostQuiet = true → ∃ u, step t = .next u ∧ u.phase = .faulted ∧ u.out = t.out)

/-- At the last byte of memory (spec/60_exceptions.md R126): 0xEB faults, 0x00 pads and the next step faults, any
other byte is unsupported and does not fault. -/
def Obligations.PriorityAtTheTopOfMemory : Prop :=
  ∀ s : State, s.StepEnabled → s.ip.toNat = 0xFFFF → s.hostInput = [] →
    (s.opcode = 0xEB#8 → ∃ t, step s = .next t ∧ FaultTaken 0x10000#17 s t) ∧
    (s.opcode = 0x00#8 → ∃ t u, step s = .next t ∧ t.ip = 0x10000#17 ∧ t.out = s.out ∧ t.run = true ∧
      step t = .next u ∧ FaultTaken 0x10000#17 t u) ∧
    (s.opcode ≠ 0xEB#8 → s.opcode ≠ 0x00#8 → ∃ t, step s = .next t ∧
      t.out = s.out ++ [.diagUnsupported s.opcode 0xFFFF#16] ∧ t.cause = .unsupportedOpcode)

/-- Which addresses an address fault can carry, and where none is possible (spec/60_exceptions.md R124). -/
def Obligations.AddressFaultsOnlyAboveMemory : Prop :=
  ∀ s t : State, s.StepEnabled → s.IpInRange → step s = .next t →
    (∀ a, t.out = s.out ++ [.addrFault a] → 0x10000 ≤ a.toNat ∧ a.toNat ≤ 0x100FF ∧
      (s.ip.toNat = 0xFFFF → a = 0x10000#17)) ∧
    (s.ip.toNat ≤ 0xFFFE → ∀ a, t.out ≠ s.out ++ [.addrFault a])

/-- What a STEP never does (spec/40_engine_loop.md R77): no write to memory or `PHASE`, at most one event, which is
the diagnostic or the address fault and comes with the halt. -/
def Obligations.StepHasNoOtherEffect : Prop :=
  ∀ s t : State, s.StepEnabled → step s = .next t →
    t.mem = s.mem ∧ t.phase = .exec ∧ t.loadErrors = s.loadErrors ∧ t.hostInput = s.hostInput.tail ∧
    (t.out = s.out ∨
      (t.run = false ∧ t.cause = .unsupportedOpcode ∧ t.out = s.out ++ [.diagUnsupported s.opcode (diagIp s.ip)]) ∨
      (t.run = false ∧ t.cause = .addressFault ∧ t.out = s.out ++ [.addrFault (faultAddress s.ip)])) ∧
    (t.run = true → t.out = s.out ∧ t.cause = s.cause)

/-- Three things clear `RUN`, and nothing else does (spec/40_engine_loop.md R74). -/
def Obligations.ThreeThingsClearRun : Prop :=
  ∀ s t : State, step s = .next t → s.run = true →
    (t.run = false ↔ s.StepEnabled ∧
      ((s.ip.toNat < 0xFFFF ∧ s.opcode = 0xEB#8 ∧ s.offset = 0xFE#8) ∨
       (s.ip.toNat < 0x10000 ∧ s.opcode ≠ 0x00#8 ∧ s.opcode ≠ 0xEB#8) ∨
       (0x10000 ≤ s.ip.toNat ∨ (s.ip.toNat = 0xFFFF ∧ s.opcode = 0xEB#8))))

/-- `IP` never goes down, rises while the engine runs, and stays at the halt (spec/40_engine_loop.md R76). -/
def Obligations.IpRisesWhileRunning : Prop :=
  (∀ s t : State, step s = .next t → s.resetComing = false → s.ip.toNat ≤ t.ip.toNat) ∧
  (∀ s t : State, s.StepEnabled → step s = .next t →
    (t.run = true → s.ip.toNat < t.ip.toNat ∧ t.ip.toNat ≤ s.ip.toNat + 257) ∧ (t.run = false → t.ip = s.ip))

/-- A step depends on `IP` and the bytes it fetches alone (spec/40_engine_loop.md R72, spec/20_memory.md R33). -/
def Obligations.StepReadsOnlyTheInstructionsBytes : Prop :=
  ∀ s t : State, s.StepEnabled → t.StepEnabled → s.ip = t.ip → s.cause = t.cause → (s.InMemory → s.opcode = t.opcode) →
    (s.opcode = 0xEB#8 → s.ip.toNat < 0xFFFF → s.offset = t.offset) →
    ∃ s' t' events, step s = .next s' ∧ step t = .next t' ∧ s'.ip = t'.ip ∧ s'.run = t'.run ∧
      s'.cause = t'.cause ∧ s'.out = s.out ++ events ∧ t'.out = t.out ++ events

/-- The console sink is never read (spec/10_state.md R19). That the list of the loader's reports is never read
either is the model's (log entry 4, DESIGN CHOICE): the field is its own. -/
def Obligations.OutputNeverInfluencesTheMachine : Prop :=
  ∀ (s t : State) o e, step s = .next t → ∃ t', step { s with out := o, loadErrors := e } = .next t' ∧
    t'.mem = t.mem ∧ t'.ip = t.ip ∧ t'.run = t.run ∧ t'.phase = t.phase ∧ t'.cause = t.cause ∧
    t'.hostInput = t.hostInput

/-- `k` consecutive padding bytes take `k` steps and add `k` to `IP` (spec/42_padding.md R90). -/
def Obligations.ConsecutivePaddingsAddUp : Prop :=
  ∀ (k : Nat) (s : State), s.StepEnabled → s.hostInput = [] → s.ip.toNat + k ≤ 0x10000 →
    (∀ j, j < k → s.mem.read (s.ip.toNat + j) = 0x00#8) →
    runSteps k s = .next { s with ip := s.ip + BitVec.ofNat 17 k }

/-! ## Registers and invariants -/

/-- The status read tells the four registers, each by the code spec/10_state.md R17 and R18 give it. -/
def Obligations.StatusReadTellsTheRegisters : Prop :=
  (∀ s t : State, status s = status t ↔ s.phase = t.phase ∧ s.cause = t.cause ∧ s.run = t.run ∧ s.ip = t.ip) ∧
  [Phase.reset, .exec, .noBoot, .done, .faulted].map phaseCode = [0#3, 1#3, 2#3, 3#3, 4#3] ∧
  [Cause.none, .selfLoop, .unsupportedOpcode, .addressFault].map causeCode = [0#2, 1#2, 2#2, 3#2]

/-- Every transition keeps `RUN == 1` if and only if `CAUSE == NONE` (spec/10_state.md R18). -/
def Obligations.StepKeepsRunIffNoCause : Prop :=
  ∀ s t : State, step s = .next t → s.RunIffNoCause → t.RunIffNoCause

/-- Every transition keeps `IP` between 0x7C00 and 0x100FF (spec/10_state.md R12). -/
def Obligations.StepKeepsIpInRange : Prop :=
  ∀ s t : State, step s = .next t → s.IpInRange → t.IpInRange

/-- Every transition keeps the machine's invariant: memory canonical, `IP` in range, `RUN` and `CAUSE` in step, the
cause borne out by memory at `IP`, phase and signature consistent, and `OUT` exactly the trace that
spec/44_boot_sequence.md R111 gives for the phase and the cause. -/
def Obligations.StepKeepsTheMachineInvariant : Prop :=
  ∀ s t : State, step s = .next t → s.Inv → t.Inv

/-- The invariant holds at reset. -/
def Obligations.ResetMeetsTheMachineInvariant : Prop := State.reset.Inv

/-- Under the invariant the machine never sticks: it stops only where the host writes memory after start. -/
def Obligations.InvariantStatesNeverStick : Prop :=
  ∀ s : State, s.Inv → (∃ t, step s = .next t) ∨
    (step s = .refused .memoryWriteAfterStart ∧ s.phase ≠ .reset ∧
      ((∃ a b, s.hostInput.head? = some (.write a b)) ∨ ∃ bs base, s.hostInput.head? = some (.loadImage bs base)))

/-- Every engine loop ends within 33793 steps (spec/40_engine_loop.md R73, R75), from any memory. -/
def Obligations.EngineLoopEnds : Prop :=
  ∀ s : State, s.StepEnabled → s.hostInput = [] → 0x7C00 ≤ s.ip.toNat →
    ∃ n t, n ≤ 33793 ∧ runSteps n s = .next t ∧ t.run = false ∧ t.phase = .exec ∧ t.mem = s.mem

/-- From `start` every run ends, in one of the four outcomes of spec/44_boot_sequence.md R111, whatever memory
holds. -/
def Obligations.EveryRunReachesOneOfFourOutcomes : Prop :=
  ∀ s : State, s.Inv → s.phase = .reset → s.hostInput = [.start] →
    ∃ n t, n ≤ 33795 ∧ runSteps n s = .next t ∧ t.mem = s.mem ∧
      ((t.phase = .noBoot ∧ t.cause = .none ∧ t.out = [.banner, .bootError]) ∨
       (t.phase = .done ∧ t.cause = .selfLoop ∧ t.out = [.banner, .booting, .waiting]) ∨
       (t.phase = .done ∧ t.cause = .unsupportedOpcode ∧
         t.out = [.banner, .booting, .diagUnsupported t.opcode (diagIp t.ip), .waiting]) ∨
       (t.phase = .faulted ∧ t.cause = .addressFault ∧ t.out = [.banner, .booting, .addrFault (faultAddress t.ip)]))
end

