-- ==== Sys2Proof/Laws/Memory.lean ====
section
/-! SUPPORT. Memory: the canonical form is kept by every operation, and what a read answers after a write. -/

namespace Sys2Proof.Machine

theorem Memory.wfFrom_mono {lo lo' : Nat} (h : lo' ≤ lo) :
    ∀ {m : Memory}, Memory.wfFrom lo m = true → Memory.wfFrom lo' m = true
  | [], _ => rfl
  | (a, b) :: m, hm => by
    simp only [Memory.wfFrom, Bool.and_eq_true, decide_eq_true_eq] at hm ⊢
    exact ⟨⟨⟨h.trans hm.1.1.1, hm.1.1.2⟩, hm.1.2⟩, hm.2⟩

/-- What a listed first cell of a canonical memory is. -/
theorem Memory.wfFrom_cons {lo a : Nat} {b : Byte} {m : Memory} :
    Memory.wfFrom lo ((a, b) :: m) = true ↔
      lo ≤ a ∧ a < Config.memSize ∧ b ≠ Config.emptyByte ∧ Memory.wfFrom (a + 1) m = true := by
  simp [Memory.wfFrom, and_assoc]

/-- Storing a byte keeps the canonical form. -/
theorem Memory.wfFrom_write {x : Nat} (v : Byte) (hx : x < Config.memSize) :
    ∀ {m : Memory} {lo : Nat}, lo ≤ x → Memory.wfFrom lo m = true → Memory.wfFrom lo (m.write x v) = true
  | [], lo, hlo, _ => by
    unfold Memory.write
    split
    · rfl
    · exact Memory.wfFrom_cons.2 ⟨hlo, hx, ‹_›, rfl⟩
  | (a, b) :: m, lo, hlo, hm => by
    obtain ⟨ha, hsz, hb, hrest⟩ := Memory.wfFrom_cons.1 hm
    unfold Memory.write
    split
    · split
      · exact hm
      · exact Memory.wfFrom_cons.2 ⟨hlo, hx, ‹_›, Memory.wfFrom_cons.2 ⟨by omega, hsz, hb, hrest⟩⟩
    · split
      · subst x
        split
        · exact Memory.wfFrom_mono (by omega) hrest
        · exact Memory.wfFrom_cons.2 ⟨hlo, hx, ‹_›, hrest⟩
      · exact Memory.wfFrom_cons.2 ⟨ha, hsz, hb, Memory.wfFrom_write v hx (by omega) hrest⟩

theorem Memory.wf_write {m : Memory} {x : Nat} (v : Byte) (hx : x < Config.memSize) (hm : m.wf = true) :
    (m.write x v).wf = true := Memory.wfFrom_write v hx (Nat.zero_le x) hm

/-- Copying bytes keeps the canonical form. -/
theorem Memory.wf_copy : ∀ (bs : List Byte) {m : Memory} {base : Nat},
    base + bs.length ≤ Config.memSize → m.wf = true → (m.copy base bs).wf = true
  | [], _, _, _, hm => hm
  | b :: bs, m, base, h, hm => by
    rw [List.length_cons] at h
    exact Memory.wf_copy bs (by omega) (Memory.wf_write b (by omega) hm)

/-- Below the first listed address a canonical memory holds the empty byte. -/
theorem Memory.read_of_lt {x : Nat} : ∀ {m : Memory} {lo : Nat},
    Memory.wfFrom lo m = true → x < lo → m.read x = Config.emptyByte
  | [], _, _, _ => rfl
  | (a, b) :: m, lo, hm, hx => by
    obtain ⟨ha, _, _, hrest⟩ := Memory.wfFrom_cons.1 hm
    unfold Memory.read
    rw [if_neg (by omega)]
    exact Memory.read_of_lt hrest (by omega)

/-- A read after a write: the byte written at the address written, the old byte elsewhere. -/
theorem Memory.read_write {x : Nat} (v : Byte) (y : Nat) : ∀ {m : Memory} {lo : Nat},
    Memory.wfFrom lo m = true → (m.write x v).read y = if y = x then v else m.read y
  | [], lo, _ => by
    unfold Memory.write
    by_cases hv : v = Config.emptyByte <;> simp [hv, Memory.read]
  | (a, b) :: m, lo, hm => by
    obtain ⟨_, _, _, hrest⟩ := Memory.wfFrom_cons.1 hm
    have ih := Memory.read_write (x := x) v y hrest
    have low : ∀ z, z ≤ a → Memory.read m z = Config.emptyByte := fun z hz => Memory.read_of_lt hrest (by omega)
    rcases Nat.lt_trichotomy x a with hx | rfl | hx
    · have := low x hx.le
      by_cases hv : v = Config.emptyByte <;> by_cases hy : y = x <;>
        simp [Memory.write, Memory.read, hx, hv, hy, this, Nat.ne_of_lt hx]
    · have := low x le_rfl
      by_cases hv : v = Config.emptyByte <;> by_cases hy : y = x <;>
        simp [Memory.write, Memory.read, hv, hy, this]
    · by_cases hy : y = a
      · simp [Memory.write, Memory.read, hy, Nat.not_lt_of_gt hx, Nat.ne_of_gt hx, Nat.ne_of_lt hx]
      · simp [Memory.write, Memory.read, hy, Nat.not_lt_of_gt hx, Nat.ne_of_gt hx, ih]

/-- A read after a copy: the copied byte inside the copied range, the old byte elsewhere. -/
theorem Memory.read_copy (y : Nat) : ∀ (bs : List Byte) {m : Memory} {base : Nat},
    base + bs.length ≤ Config.memSize → m.wf = true →
      (m.copy base bs).read y = if base ≤ y then (bs[y - base]?).getD (m.read y) else m.read y
  | [], _, _, _, _ => by simp [Memory.copy]
  | b :: bs, m, base, h, hm => by
    rw [List.length_cons] at h
    have step := Memory.read_copy y bs (base := base + 1) (by omega) (Memory.wf_write b (x := base) (by omega) hm)
    rw [Memory.copy, step, Memory.read_write b y hm]
    rcases Nat.lt_trichotomy y base with hy | rfl | hy
    · simp [Nat.not_le_of_gt hy, Nat.ne_of_lt hy, show ¬ base + 1 ≤ y by omega]
    · simp
    · obtain ⟨k, rfl⟩ : ∃ k, y = base + 1 + k := ⟨y - (base + 1), by omega⟩
      simp [show base + 1 + k - base = k + 1 by omega, show base ≤ base + 1 + k by omega,
        show base + 1 + k ≠ base by omega]

theorem Memory.wf_reset : State.reset.mem.wf = true := rfl

/-- The loader's `write` keeps the canonical form. -/
theorem writeByte_wf {a : Nat} {b : Byte} {m m' : Memory} (hm : m.wf = true)
    (h : writeByte a b m = .ok m') : m'.wf = true := by
  unfold writeByte at h
  split at h
  · cases h
    exact Memory.wf_write b ‹_› hm
  · cases h

/-- The loader's `load_image` keeps the canonical form. -/
theorem loadBytes_wf {bs : List Byte} {base : Nat} {m m' : Memory} (hm : m.wf = true)
    (h : loadBytes bs base m = .ok m') : m'.wf = true := by
  unfold loadBytes at h
  split at h
  · cases h
  · split at h
    · cases h
    · cases h
      exact Memory.wf_copy bs (by omega) hm

end Sys2Proof.Machine
end

