-- ==== Sys2Proof/Laws/Assembler.lean ====
section
/-! SUPPORT. What assembling a listing (spec/30_encoding.md R58) can do to memory. -/

namespace Sys2Proof.Machine

/-- A line other than `.org`: its bytes exist, lie in memory, and the rest is assembled behind them. -/
theorem assemble_line {m m' : Memory} {addr : Nat} {l : AsmLine} {ls : List AsmLine} (hl : ∀ a, l ≠ .org a)
    (h : assemble m addr (l :: ls) = some m') : ∃ bs, asmBytes l = some bs ∧ addr + bs.length ≤ Config.memSize ∧
      assemble (m.copy addr bs) (addr + bs.length) ls = some m' := by
  rw [assemble.eq_3 m addr l ls hl] at h
  split at h
  · cases h
  · split at h
    · exact ⟨_, ‹_›, ‹_›, h⟩
    · cases h

/-- Assembling keeps the canonical form: nothing is placed at or past 0x10000 (log entry 18). -/
theorem assemble_wf {m' : Memory} : ∀ (ls : List AsmLine) {m : Memory} {addr : Nat},
    m.wf = true → assemble m addr ls = some m' → m'.wf = true
  | [], _, _, hm, h => by cases h; exact hm
  | l :: ls, _, _, hm, h => by
    by_cases hl : ∃ a, l = .org a
    · obtain ⟨a, rfl⟩ := hl
      exact assemble_wf ls hm h
    · obtain ⟨bs, -, hb, h⟩ := assemble_line (fun a e => hl ⟨a, e⟩) h
      exact assemble_wf ls (Memory.wf_copy bs hb hm) h

end Sys2Proof.Machine
end

