-- ==== Sys2Proof/Laws/State.lean ====
section
/-! SUPPORT. One lemma per field of `State` per update, so that no later proof unfolds a record update. -/

namespace Sys2Proof.Machine

variable (s : State)

@[simp] theorem State.halt_mem (c : Cause) : (s.halt c).mem = s.mem := rfl
@[simp] theorem State.halt_ip (c : Cause) : (s.halt c).ip = s.ip := rfl
@[simp] theorem State.halt_run (c : Cause) : (s.halt c).run = false := rfl
@[simp] theorem State.halt_phase (c : Cause) : (s.halt c).phase = s.phase := rfl
@[simp] theorem State.halt_cause (c : Cause) : (s.halt c).cause = c := rfl
@[simp] theorem State.halt_out (c : Cause) : (s.halt c).out = s.out := rfl
@[simp] theorem State.halt_hostInput (c : Cause) : (s.halt c).hostInput = s.hostInput := rfl
@[simp] theorem State.halt_loadErrors (c : Cause) : (s.halt c).loadErrors = s.loadErrors := rfl

@[simp] theorem State.setIp_mem (a : Addr) : (s.setIp a).mem = s.mem := rfl
@[simp] theorem State.setIp_ip (a : Addr) : (s.setIp a).ip = a := rfl
@[simp] theorem State.setIp_run (a : Addr) : (s.setIp a).run = s.run := rfl
@[simp] theorem State.setIp_phase (a : Addr) : (s.setIp a).phase = s.phase := rfl
@[simp] theorem State.setIp_cause (a : Addr) : (s.setIp a).cause = s.cause := rfl
@[simp] theorem State.setIp_out (a : Addr) : (s.setIp a).out = s.out := rfl
@[simp] theorem State.setIp_hostInput (a : Addr) : (s.setIp a).hostInput = s.hostInput := rfl
@[simp] theorem State.setIp_loadErrors (a : Addr) : (s.setIp a).loadErrors = s.loadErrors := rfl

@[simp] theorem State.emit_mem (e : Event) : (s.emit e).mem = s.mem := rfl
@[simp] theorem State.emit_ip (e : Event) : (s.emit e).ip = s.ip := rfl
@[simp] theorem State.emit_run (e : Event) : (s.emit e).run = s.run := rfl
@[simp] theorem State.emit_phase (e : Event) : (s.emit e).phase = s.phase := rfl
@[simp] theorem State.emit_cause (e : Event) : (s.emit e).cause = s.cause := rfl
@[simp] theorem State.emit_out (e : Event) : (s.emit e).out = s.out ++ [e] := rfl
@[simp] theorem State.emit_hostInput (e : Event) : (s.emit e).hostInput = s.hostInput := rfl
@[simp] theorem State.emit_loadErrors (e : Event) : (s.emit e).loadErrors = s.loadErrors := rfl

@[simp] theorem State.enter_mem (p : Phase) : (s.enter p).mem = s.mem := rfl
@[simp] theorem State.enter_ip (p : Phase) : (s.enter p).ip = s.ip := rfl
@[simp] theorem State.enter_run (p : Phase) : (s.enter p).run = s.run := rfl
@[simp] theorem State.enter_phase (p : Phase) : (s.enter p).phase = p := rfl
@[simp] theorem State.enter_cause (p : Phase) : (s.enter p).cause = s.cause := rfl
@[simp] theorem State.enter_out (p : Phase) : (s.enter p).out = s.out := rfl
@[simp] theorem State.enter_hostInput (p : Phase) : (s.enter p).hostInput = s.hostInput := rfl
@[simp] theorem State.enter_loadErrors (p : Phase) : (s.enter p).loadErrors = s.loadErrors := rfl

@[simp] theorem State.setMem_mem (m : Memory) : (s.setMem m).mem = m := rfl
@[simp] theorem State.setMem_ip (m : Memory) : (s.setMem m).ip = s.ip := rfl
@[simp] theorem State.setMem_run (m : Memory) : (s.setMem m).run = s.run := rfl
@[simp] theorem State.setMem_phase (m : Memory) : (s.setMem m).phase = s.phase := rfl
@[simp] theorem State.setMem_cause (m : Memory) : (s.setMem m).cause = s.cause := rfl
@[simp] theorem State.setMem_out (m : Memory) : (s.setMem m).out = s.out := rfl
@[simp] theorem State.setMem_hostInput (m : Memory) : (s.setMem m).hostInput = s.hostInput := rfl
@[simp] theorem State.setMem_loadErrors (m : Memory) : (s.setMem m).loadErrors = s.loadErrors := rfl

@[simp] theorem State.setHostInput_mem (h : List HostAction) : (s.setHostInput h).mem = s.mem := rfl
@[simp] theorem State.setHostInput_ip (h : List HostAction) : (s.setHostInput h).ip = s.ip := rfl
@[simp] theorem State.setHostInput_run (h : List HostAction) : (s.setHostInput h).run = s.run := rfl
@[simp] theorem State.setHostInput_phase (h : List HostAction) : (s.setHostInput h).phase = s.phase := rfl
@[simp] theorem State.setHostInput_cause (h : List HostAction) : (s.setHostInput h).cause = s.cause := rfl
@[simp] theorem State.setHostInput_out (h : List HostAction) : (s.setHostInput h).out = s.out := rfl
@[simp] theorem State.setHostInput_hostInput (h : List HostAction) : (s.setHostInput h).hostInput = h := rfl
@[simp] theorem State.setHostInput_loadErrors (h : List HostAction) : (s.setHostInput h).loadErrors = s.loadErrors := rfl

@[simp] theorem State.report_mem (e : LoadError) : (s.report e).mem = s.mem := rfl
@[simp] theorem State.report_ip (e : LoadError) : (s.report e).ip = s.ip := rfl
@[simp] theorem State.report_run (e : LoadError) : (s.report e).run = s.run := rfl
@[simp] theorem State.report_phase (e : LoadError) : (s.report e).phase = s.phase := rfl
@[simp] theorem State.report_cause (e : LoadError) : (s.report e).cause = s.cause := rfl
@[simp] theorem State.report_out (e : LoadError) : (s.report e).out = s.out := rfl
@[simp] theorem State.report_hostInput (e : LoadError) : (s.report e).hostInput = s.hostInput := rfl
@[simp] theorem State.report_loadErrors (e : LoadError) : (s.report e).loadErrors = s.loadErrors ++ [e] := rfl

@[simp] theorem State.takeAddressFault_mem (a : Addr) : (s.takeAddressFault a).mem = s.mem := rfl
@[simp] theorem State.takeAddressFault_ip (a : Addr) : (s.takeAddressFault a).ip = s.ip := rfl
@[simp] theorem State.takeAddressFault_run (a : Addr) : (s.takeAddressFault a).run = false := rfl
@[simp] theorem State.takeAddressFault_phase (a : Addr) : (s.takeAddressFault a).phase = s.phase := rfl
@[simp] theorem State.takeAddressFault_cause (a : Addr) : (s.takeAddressFault a).cause = .addressFault := rfl
@[simp] theorem State.takeAddressFault_out (a : Addr) : (s.takeAddressFault a).out = s.out ++ [.addrFault a] := rfl
@[simp] theorem State.takeAddressFault_hostInput (a : Addr) : (s.takeAddressFault a).hostInput = s.hostInput := rfl
@[simp] theorem State.takeAddressFault_loadErrors (a : Addr) : (s.takeAddressFault a).loadErrors = s.loadErrors := rfl

@[simp] theorem State.afterTurn_mem : s.afterTurn.mem = s.mem := rfl
@[simp] theorem State.afterTurn_ip : s.afterTurn.ip = s.ip := rfl
@[simp] theorem State.afterTurn_run : s.afterTurn.run = s.run := rfl
@[simp] theorem State.afterTurn_phase : s.afterTurn.phase = s.phase := rfl
@[simp] theorem State.afterTurn_cause : s.afterTurn.cause = s.cause := rfl
@[simp] theorem State.afterTurn_out : s.afterTurn.out = s.out := rfl
@[simp] theorem State.afterTurn_hostInput : s.afterTurn.hostInput = s.hostInput.tail := rfl
@[simp] theorem State.afterTurn_loadErrors : s.afterTurn.loadErrors = s.loadErrors := rfl

@[simp] theorem hostReset_mem : (hostReset s).mem = State.reset.mem := rfl
@[simp] theorem hostReset_ip : (hostReset s).ip = State.reset.ip := rfl
@[simp] theorem hostReset_run : (hostReset s).run = State.reset.run := rfl
@[simp] theorem hostReset_phase : (hostReset s).phase = State.reset.phase := rfl
@[simp] theorem hostReset_cause : (hostReset s).cause = State.reset.cause := rfl
@[simp] theorem hostReset_out : (hostReset s).out = State.reset.out := rfl
@[simp] theorem hostReset_hostInput : (hostReset s).hostInput = s.hostInput := rfl
@[simp] theorem hostReset_loadErrors : (hostReset s).loadErrors = s.loadErrors := rfl

end Sys2Proof.Machine
end

