-- ==== Sys2Proof/Laws/Ops.lean ====
section
/-! SUPPORT. What each shared operation can do: the byte-read interface, the fetch, the operand sums, the
validator, and the meaning of each instruction as one state. -/

namespace Sys2Proof.Machine

/-- A read succeeds exactly on the addresses of memory. -/
theorem memRead_eq_ok {m : Memory} {a : Addr} {b : Byte} :
    memRead m a = .ok b ↔ a.toNat < Config.memSize ∧ b = m.read a.toNat := by
  unfold memRead
  split <;> simp_all [eq_comm]

/-- A read fails exactly above memory, with its own address. -/
theorem memRead_eq_error {m : Memory} {a x : Addr} :
    memRead m a = .error x ↔ Config.memSize ≤ a.toNat ∧ x = a := by
  unfold memRead
  split <;> simp_all [eq_comm]

/-- The sum of a padding as a natural number: no carry is lost from an address of memory. -/
theorem nextByte_toNat {ip : Addr} (h : ip.toNat < Config.memSize) : (nextByte ip).toNat = ip.toNat + 1 := by
  simp only [Config.memSize] at h
  simp only [nextByte, BitVec.toNat_add, BitVec.toNat_ofNat]
  omega

/-- The sum of a near-jump as a natural number: no carry is lost from an address of memory. -/
theorem jumpTarget_toNat {ip : Addr} (off : Byte) (h : ip.toNat < Config.memSize) :
    (jumpTarget ip off).toNat = ip.toNat + 2 + off.toNat := by
  have := off.isLt
  simp only [Config.memSize] at h
  simp only [jumpTarget, zext17, BitVec.toNat_add, BitVec.toNat_ofNat, BitVec.toNat_setWidth]
  omega

/-- The address of the offset byte as a natural number. -/
theorem offsetAddr_toNat {ip : Addr} (h : ip.toNat < Config.memSize) : (ip + 1#17).toNat = ip.toNat + 1 :=
  nextByte_toNat h

/-- Where the read of the opcode succeeds, the fetch is decided by the opcode's class. -/
theorem fetch_of_lt {s : State} (h : s.ip.toNat < Config.memSize) :
    fetch s = match classOf (s.mem.read s.ip.toNat) with
      | .padding => .ok .padding
      | .unsupported b => .ok (.unsupported b)
      | .nearJump =>
        match memRead s.mem (s.ip + 1#17) with
        | .error a => .error a
        | .ok off => .ok (nearJumpForm off) := by
  unfold fetch
  rw [memRead_eq_ok.2 ⟨h, rfl⟩] <;> rfl

/-- Everything a fetch can answer (spec/40_engine_loop.md R70). -/
inductive FetchCase (s : State) : Except Addr Instr → Prop
  | opcodeFault (h : Config.memSize ≤ s.ip.toNat) : FetchCase s (.error s.ip)
  | offsetFault (h : s.ip.toNat = 0xFFFF) (op : s.mem.read 0xFFFF = Config.opNearJump) :
      FetchCase s (.error 0x10000#17)
  | padding (h : s.ip.toNat < Config.memSize) (op : s.mem.read s.ip.toNat = Config.opPadding) :
      FetchCase s (.ok .padding)
  | unsupported (h : s.ip.toNat < Config.memSize) (nj : s.mem.read s.ip.toNat ≠ Config.opNearJump)
      (np : s.mem.read s.ip.toNat ≠ Config.opPadding) :
      FetchCase s (.ok (.unsupported (s.mem.read s.ip.toNat)))
  | selfHalt (h : s.ip.toNat < 0xFFFF) (op : s.mem.read s.ip.toNat = Config.opNearJump)
      (off : s.mem.read (s.ip.toNat + 1) = Config.offSelfHalt) : FetchCase s (.ok .selfHalt)
  | nearJump (h : s.ip.toNat < 0xFFFF) (op : s.mem.read s.ip.toNat = Config.opNearJump)
      (off : s.mem.read (s.ip.toNat + 1) ≠ Config.offSelfHalt) :
      FetchCase s (.ok (.nearJump (s.mem.read (s.ip.toNat + 1))))

theorem fetch_cases (s : State) : FetchCase s (fetch s) := by
  by_cases h : s.ip.toNat < Config.memSize
  · rw [fetch_of_lt h]
    by_cases nj : s.mem.read s.ip.toNat = Config.opNearJump
    · have hoff := offsetAddr_toNat h
      rw [show classOf (s.mem.read s.ip.toNat) = .nearJump from if_pos nj]
      by_cases top : s.ip.toNat = 0xFFFF
      · have e : s.ip + 1#17 = 0x10000#17 := BitVec.eq_of_toNat_eq (by rw [hoff, top]; rfl)
        rw [memRead_eq_error.2 ⟨by rw [hoff, top]; decide, rfl⟩, e]
        exact .offsetFault top (top ▸ nj)
      · have lt : s.ip.toNat < 0xFFFF := by simp only [Config.memSize] at h; omega
        rw [memRead_eq_ok.2 ⟨by simp only [Config.memSize]; omega, rfl⟩, hoff]
        simp only [nearJumpForm]
        split
        · exact .selfHalt lt nj ‹_›
        · exact .nearJump lt nj ‹_›
    · by_cases np : s.mem.read s.ip.toNat = Config.opPadding
      · rw [show classOf (s.mem.read s.ip.toNat) = .padding from by simp [classOf, np, Config.opPadding, Config.opNearJump]]
        exact .padding h np
      · rw [show classOf (s.mem.read s.ip.toNat) = .unsupported (s.mem.read s.ip.toNat) from by simp [classOf, nj, np]]
        exact .unsupported h nj np
  · have : fetch s = .error s.ip := by
      unfold fetch
      rw [memRead_eq_error.2 ⟨Nat.le_of_not_lt h, rfl⟩]
    rw [this]
    exact .opcodeFault (Nat.le_of_not_lt h)

/-- A padding byte at `IP` is fetched as `PADDING`. -/
theorem fetch_of_padding {s : State} (h : s.InMemory) (op : s.opcode = Config.opPadding) : fetch s = .ok .padding := by
  rw [fetch_of_lt h, show s.mem.read s.ip.toNat = Config.opPadding from op]
  rfl

/-- An unsupported byte at `IP` is fetched as itself. -/
theorem fetch_of_unsupported {s : State} (h : s.InMemory) (np : s.opcode ≠ Config.opPadding)
    (nj : s.opcode ≠ Config.opNearJump) : fetch s = .ok (.unsupported s.opcode) := by
  rw [fetch_of_lt h, show classOf s.opcode = .unsupported s.opcode by simp [classOf, nj, np]]

/-- The byte 0xEB at `IP` with an offset byte in memory is fetched as the form the offset selects. -/
theorem fetch_of_nearJump {s : State} (h : s.ip.toNat < 0xFFFF) (op : s.opcode = Config.opNearJump) :
    fetch s = .ok (nearJumpForm s.offset) := by
  have lt : s.ip.toNat < Config.memSize := by simp only [Config.memSize]; omega
  have hoff := offsetAddr_toNat lt
  rw [fetch_of_lt lt, show s.mem.read s.ip.toNat = Config.opNearJump from op, show classOf Config.opNearJump = .nearJump from rfl,
    memRead_eq_ok.2 ⟨by rw [hoff]; simp only [Config.memSize]; omega, rfl⟩, hoff]

/-- The byte 0xEB at the last byte of memory faults on its offset. -/
theorem fetch_of_offsetFault {s : State} (h : s.ip.toNat = 0xFFFF) (op : s.opcode = Config.opNearJump) :
    fetch s = .error 0x10000#17 := by
  have c := fetch_cases s
  rw [State.opcode] at op
  generalize fetch s = f at c
  cases c with
  | opcodeFault h' => simp only [Config.memSize] at h'; omega
  | offsetFault => rfl
  | padding _ np => exact absurd (np.symm.trans op) (by decide)
  | unsupported _ nj => exact absurd op nj
  | selfHalt lt => omega
  | nearJump lt => omega

/-- Above memory the opcode fetch faults. -/
theorem fetch_of_opcodeFault {s : State} (h : Config.memSize ≤ s.ip.toNat) : fetch s = .error s.ip := by
  unfold fetch
  rw [memRead_eq_error.2 ⟨h, rfl⟩]

/-- The engine fetches only instructions of the set. -/
theorem fetch_wellFormed {s : State} {i : Instr} (h : fetch s = .ok i) : i.WellFormed := by
  have c := fetch_cases s
  rw [h] at c
  cases c with
  | padding => rfl
  | selfHalt => rfl
  | unsupported _ nj np => simp [Instr.WellFormed, Instr.wf, nj, np]
  | nearJump _ _ off => simp [Instr.WellFormed, Instr.wf, off]

/-- A fetch depends on memory and `IP` alone. -/
theorem fetch_congr {s t : State} (hm : s.mem = t.mem) (hip : s.ip = t.ip) : fetch s = fetch t := by
  unfold fetch
  rw [hm, hip]

/-- Equal memories, phases and reports make `SameOutside`. -/
theorem sameOutside_of_eq {s t : State} (hm : t.mem = s.mem) (hp : t.phase = s.phase)
    (hl : t.loadErrors = s.loadErrors) : SameOutside s t :=
  ⟨fun _ => by rw [hm], hp, hl⟩

/-- The fault address of an offset fetch. -/
theorem faultAddress_of_lt {ip : Addr} (h : ip.toNat < Config.memSize) : faultAddress ip = 0x10000#17 := if_pos h

/-- The fault address of an opcode fetch. -/
theorem faultAddress_of_le {ip : Addr} (h : Config.memSize ≤ ip.toNat) : faultAddress ip = ip :=
  if_neg (Nat.not_lt.2 h)

/-- The next state of each meaning. -/
theorem exec_padding (s : State) : exec .padding s = .next (s.setIp (nextByte s.ip)) := rfl

theorem exec_selfHalt (s : State) : exec .selfHalt s = .next (s.halt .selfLoop) := rfl

theorem exec_nearJump (off : Byte) (s : State) :
    exec (.nearJump off) s = .next (s.setIp (jumpTarget s.ip off)) := rfl

theorem exec_unsupported (b : Byte) (s : State) :
    exec (.unsupported b) s =
      .next ((s.emit (.diagUnsupported b (diagIp s.ip))).halt .unsupportedOpcode) := rfl

/-- The validator as a condition on two bytes of memory (spec/44_boot_sequence.md R100). -/
theorem sigValid_eq (m : Memory) :
    sigValid m = (m.read 0x7DFE == Config.sigByte0 && m.read 0x7DFF == Config.sigByte1) := by
  unfold sigValid
  rw [memRead_eq_ok.2 ⟨by decide, rfl⟩, memRead_eq_ok.2 ⟨by decide, rfl⟩]
  rfl

/-- `BOOT` writes `PHASE` and `OUT` only (spec/44_boot_sequence.md R101). -/
theorem boot_eq (s : State) : boot s =
    if sigValid s.mem then { s with out := s.out ++ [.banner, .booting], phase := .exec }
    else { s with out := s.out ++ [.banner, .bootError], phase := .noBoot } := by
  unfold boot
  split <;> simp [State.emit, State.enter]

/-- `FINISH` after a self-loop or an unsupported opcode. -/
theorem finish_normal {s : State} (h : s.cause = .selfLoop ∨ s.cause = .unsupportedOpcode) :
    finish s = .next ((s.emit .waiting).enter .done) := by
  unfold finish
  rcases h with h | h <;> rw [h]

/-- `FINISH` after an address fault. -/
theorem finish_fault {s : State} (h : s.cause = .addressFault) : finish s = .next (s.enter .faulted) := by
  unfold finish
  rw [h]

/-- A loader operation in phase `RESET`: the new memory, or the report. -/
theorem hostLoad_of_reset {r : Except LoadError Memory} {s : State} (h : s.phase = .reset) :
    hostLoad r s = match r with
      | .ok m => .next (s.setMem m)
      | .error e => .next (s.report e) := by
  unfold hostLoad
  rw [h] <;> rfl

/-- A loader operation in any other phase is refused. -/
theorem hostLoad_of_started {r : Except LoadError Memory} {s : State} (h : s.phase ≠ .reset) :
    hostLoad r s = .refused .memoryWriteAfterStart := by
  unfold hostLoad
  cases hp : s.phase <;> first | rfl | exact absurd hp h

end Sys2Proof.Machine
end

