-- ==== Sys2Proof/Laws/PerInstr.lean ====
section
/-! SUPPORT. Facts about every instruction as syntax, one lemma per constructor. -/

namespace Sys2Proof.Laws

/-- The encoding of an instruction has the length its own first byte tells (spec/30_encoding.md R56). -/
def EncodeLength.Statement (i : Instr) : Prop :=
  i.WellFormed → ∃ op rest, encode i = op :: rest ∧ rest.length + 1 = lengthOf op

theorem EncodeLength.padding : EncodeLength.Statement .padding := fun _ => ⟨_, _, rfl, rfl⟩

theorem EncodeLength.selfHalt : EncodeLength.Statement .selfHalt := fun _ => ⟨_, _, rfl, rfl⟩

theorem EncodeLength.nearJump (off : Byte) : EncodeLength.Statement (.nearJump off) := fun _ => ⟨_, _, rfl, rfl⟩

theorem EncodeLength.unsupported (b : Byte) : EncodeLength.Statement (.unsupported b) := by
  intro h
  refine ⟨_, _, rfl, ?_⟩
  have nj : b ≠ Config.opNearJump := by
    intro e
    simp [Instr.WellFormed, e, Instr.wf] at h
  simp [lengthOf, nj]

end Sys2Proof.Laws
end

