-- ==== Sys2Proof/Laws/Step.lean ====
section
/-! SUPPORT. Everything one transition can do, said once. -/

namespace Sys2Proof.Machine

/-- Where the host leaves the transition to the block, the step is the block's. -/
theorem step_of_quiet {s : State} (h : s.hostQuiet = true) : step s = blockTransition s.afterTurn := by
  cases hs : s.hostInput with
  | nil =>
    have : s.afterTurn = s := by cases s; simp_all [State.afterTurn, State.setHostInput]
    simp [step, transition, hs, this]
  | cons a t =>
    simp only [State.hostQuiet, hs] at h
    cases a <;> simp_all [step, transition, hostTransition, State.afterTurn]

/-- Where the host acts, the step is the host's. -/
theorem step_of_host {s : State} {h : HostAction} {rest : List HostAction} (hs : s.hostInput = h :: rest) :
    step s = hostTransition h (s.setHostInput rest) := by
  simp [step, transition, hs]

/-- STEP where it is enabled: fetch, then execute or take the fault. -/
theorem step_of_enabled {s : State} (h : s.StepEnabled) : step s = engineStep s.afterTurn := by
  rw [step_of_quiet h.2.2]
  simp [blockTransition, h.1, h.2.1]

/-- STEP of an instruction that is fetched whole. -/
theorem step_of_fetch_ok {s : State} {i : Instr} (en : s.StepEnabled) (f : fetch s = .ok i) :
    step s = exec i s.afterTurn := by
  rw [step_of_enabled en, engineStep, show fetch s.afterTurn = .ok i from f]

/-- STEP of a fetch that faults. -/
theorem step_of_fetch_error {s : State} {a : Addr} (en : s.StepEnabled) (f : fetch s = .error a) :
    step s = .next (s.afterTurn.takeAddressFault a) := by
  rw [step_of_enabled en, engineStep, show fetch s.afterTurn = .error a from f]

/-- FINISH where the engine has halted. -/
theorem step_of_halted {s : State} (quiet : s.hostQuiet = true) (phase : s.phase = .exec) (halted : s.run = false) :
    step s = finish s.afterTurn := by
  rw [step_of_quiet quiet]
  simp [blockTransition, phase, halted]

/-- Every way an enabled STEP ends: the bytes it met and the state it leaves (spec/40_engine_loop.md R70). -/
inductive EnabledCase (s t : State) : Prop
  | padding (h : s.InMemory) (op : s.opcode = Config.opPadding) (eq : t = s.afterTurn.setIp (nextByte s.ip))
  | nearJump (h : s.ip.toNat < 0xFFFF) (op : s.opcode = Config.opNearJump) (off : s.offset ≠ Config.offSelfHalt)
      (eq : t = s.afterTurn.setIp (jumpTarget s.ip s.offset))
  | selfHalt (h : s.ip.toNat < 0xFFFF) (op : s.opcode = Config.opNearJump) (off : s.offset = Config.offSelfHalt)
      (eq : t = s.afterTurn.halt .selfLoop)
  | unsupported (h : s.InMemory) (np : s.opcode ≠ Config.opPadding) (nj : s.opcode ≠ Config.opNearJump)
      (eq : t = (s.afterTurn.emit (.diagUnsupported s.opcode (diagIp s.ip))).halt .unsupportedOpcode)
  | opcodeFault (h : Config.memSize ≤ s.ip.toNat) (eq : t = s.afterTurn.takeAddressFault s.ip)
  | offsetFault (h : s.ip.toNat = 0xFFFF) (op : s.opcode = Config.opNearJump)
      (eq : t = s.afterTurn.takeAddressFault 0x10000#17)

theorem enabled_cases {s t : State} (en : s.StepEnabled) (h : step s = .next t) : EnabledCase s t := by
  have c := fetch_cases s.afterTurn
  rw [step_of_enabled en, engineStep] at h
  generalize fetch s.afterTurn = f at c h
  cases c with
  | opcodeFault hi => exact .opcodeFault hi (by cases h; rfl)
  | offsetFault top op =>
    rw [State.afterTurn_ip] at top
    exact .offsetFault top (by rw [State.opcode, top]; exact op) (by cases h; rfl)
  | padding lt op => exact .padding lt op (by cases h; rfl)
  | unsupported lt nj np => exact .unsupported lt np nj (by cases h; rfl)
  | selfHalt lt op off => exact .selfHalt lt op off (by cases h; rfl)
  | nearJump lt op off => exact .nearJump lt op off (by cases h; rfl)

/-- Every way a transition answers a next state. -/
inductive StepCase (s t : State) : Prop
  | stay (quiet : s.hostQuiet = true) (phase : s.phase ≠ .exec) (eq : t = s.afterTurn)
  | instr (en : s.StepEnabled) (i : Instr) (f : fetch s.afterTurn = .ok i)
      (ex : exec i s.afterTurn = .next t)
  | addressFault (en : s.StepEnabled) (a : Addr) (f : fetch s.afterTurn = .error a)
      (eq : t = s.afterTurn.takeAddressFault a)
  | finishNormal (quiet : s.hostQuiet = true) (phase : s.phase = .exec) (halted : s.run = false)
      (cause : s.cause = .selfLoop ∨ s.cause = .unsupportedOpcode)
      (eq : t = (s.afterTurn.emit .waiting).enter .done)
  | finishFault (quiet : s.hostQuiet = true) (phase : s.phase = .exec) (halted : s.run = false)
      (cause : s.cause = .addressFault) (eq : t = s.afterTurn.enter .faulted)
  | reset (h : s.resetComing = true) (eq : t = hostReset s.afterTurn)
  | write (a : Nat) (b : Byte) (h : s.hostInput.head? = some (.write a b)) (phase : s.phase = .reset) (m : Memory)
      (ok : writeByte a b s.mem = .ok m) (eq : t = s.afterTurn.setMem m)
  | writeError (a : Nat) (b : Byte) (h : s.hostInput.head? = some (.write a b)) (phase : s.phase = .reset)
      (e : LoadError) (err : writeByte a b s.mem = .error e) (eq : t = s.afterTurn.report e)
  | load (bs : List Byte) (base : Nat) (h : s.hostInput.head? = some (.loadImage bs base)) (phase : s.phase = .reset)
      (m : Memory) (ok : loadBytes bs base s.mem = .ok m) (eq : t = s.afterTurn.setMem m)
  | loadError (bs : List Byte) (base : Nat) (h : s.hostInput.head? = some (.loadImage bs base)) (phase : s.phase = .reset)
      (e : LoadError) (err : loadBytes bs base s.mem = .error e) (eq : t = s.afterTurn.report e)
  | boot (h : s.hostInput.head? = some .start) (phase : s.phase = .reset) (eq : t = boot s.afterTurn)
  | startIgnored (h : s.hostInput.head? = some .start) (phase : s.phase ≠ .reset) (eq : t = s.afterTurn)

theorem step_cases {s t : State} (h : step s = .next t) : StepCase s t := by
  by_cases quiet : s.hostQuiet = true
  · rw [step_of_quiet quiet] at h
    cases hp : s.phase <;> simp only [blockTransition, State.afterTurn_phase, hp, Host.Outcome.next.injEq] at h
    case exec =>
      cases hr : s.run <;> simp only [State.afterTurn_run, hr, Bool.false_eq_true, if_false, if_true] at h
      · cases hc : s.cause <;> simp only [finish, State.afterTurn_cause, hc, Host.Outcome.next.injEq] at h
        · cases h
        · exact .finishNormal quiet hp hr (.inl hc) h.symm
        · exact .finishNormal quiet hp hr (.inr hc) h.symm
        · exact .finishFault quiet hp hr hc h.symm
      · unfold engineStep at h
        split at h
        · exact .instr ⟨hp, hr, quiet⟩ _ ‹_› h
        · exact .addressFault ⟨hp, hr, quiet⟩ _ ‹_› (by simpa using h.symm)
    all_goals exact .stay quiet (by simp [hp]) h.symm
  · cases hs : s.hostInput with
    | nil => simp [State.hostQuiet, hs] at quiet
    | cons a rest =>
      have e : step s = hostTransition a s.afterTurn := by
        simp [step, transition, hs, State.afterTurn]
      rw [e] at h
      cases a with
      | idle => simp [State.hostQuiet, hs] at quiet
      | reset => exact .reset (by simp [State.resetComing, hs]) (by simpa [hostTransition] using h.symm)
      | start =>
        cases hp : s.phase <;> simp only [hostTransition, hostStart, State.afterTurn_phase, hp, Host.Outcome.next.injEq] at h
        case reset => exact .boot (by simp [hs]) hp h.symm
        all_goals exact .startIgnored (by simp [hs]) (by simp [hp]) h.symm
      | write x b =>
        cases hp : s.phase <;> simp only [hostTransition, hostLoad, State.afterTurn_phase, State.afterTurn_mem, hp] at h
        case reset =>
          split at h
          · exact .write x b (by simp [hs]) hp _ ‹_› (by simpa using h.symm)
          · exact .writeError x b (by simp [hs]) hp _ ‹_› (by simpa using h.symm)
        all_goals cases h
      | loadImage bs base =>
        cases hp : s.phase <;> simp only [hostTransition, hostLoad, State.afterTurn_phase, State.afterTurn_mem, hp] at h
        case reset =>
          split at h
          · exact .load bs base (by simp [hs]) hp _ ‹_› (by simpa using h.symm)
          · exact .loadError bs base (by simp [hs]) hp _ ‹_› (by simpa using h.symm)
        all_goals cases h

end Sys2Proof.Machine
end

