-- ==== Sys2Proof/Laws/Run.lean ====
section
/-! SUPPORT. Runs of many transitions: one more, two runs in a row, and an invariant along a run. -/

namespace Sys2Proof.Machine

theorem runSteps_succ {n : Nat} {s t : State} (h : step s = .next t) : runSteps (n + 1) s = runSteps n t := by
  rw [runSteps, h]

/-- A run whose first transition answers no next state ends there. -/
theorem runSteps_succ_eq_next {n : Nat} {s u : State} (h : runSteps (n + 1) s = .next u) :
    ∃ t, step s = .next t ∧ runSteps n t = .next u := by
  rw [runSteps] at h
  cases hs : step s with
  | next t => exact ⟨t, rfl, by simpa [hs] using h⟩
  | fault r => simp [hs] at h
  | refused r => simp [hs] at h

/-- Two runs in a row. -/
theorem runSteps_add {b : Nat} : ∀ {a : Nat} {s t : State}, runSteps a s = .next t →
    runSteps (a + b) s = runSteps b t
  | 0, s, t, h => by
    cases h
    rw [Nat.zero_add]
  | a + 1, s, t, h => by
    obtain ⟨u, hs, hu⟩ := runSteps_succ_eq_next h
    rw [Nat.add_right_comm, runSteps_succ hs, runSteps_add hu]

/-- What every transition keeps, every run keeps. -/
theorem runSteps_keeps {P : State → Prop} (keeps : ∀ s t, step s = .next t → P s → P t) :
    ∀ {n : Nat} {s t : State}, runSteps n s = .next t → P s → P t
  | 0, s, t, h, hs => by
    cases h
    exact hs
  | n + 1, s, t, h, hp => by
    obtain ⟨u, hs, hu⟩ := runSteps_succ_eq_next h
    exact runSteps_keeps keeps hu (keeps s u hs hp)

/-- The host's run by its first outcome. -/
theorem coreRun_succ (M : Host.Core) (n : Nat) (s : M.State) :
    (∀ t, M.step s = .next t → M.run (n + 1) s = M.run n t) ∧
    (∀ r, M.step s = .fault r → M.run (n + 1) s = .fault r) ∧
    (∀ r, M.step s = .refused r → M.run (n + 1) s = .refused r) := by
  refine ⟨fun t h => ?_, fun r h => ?_, fun r h => ?_⟩ <;> rw [Host.Core.run, h]

/-- `runSteps` is the host's run of this machine. -/
theorem runSteps_eq_core_run : ∀ (n : Nat) (s : State), Host.Core.run Sys2Proof.core n s = runSteps n s
  | 0, _ => rfl
  | n + 1, s => by
    rw [runSteps]
    have h := coreRun_succ Sys2Proof.core n s
    cases hs : step s with
    | next t => exact (h.1 t hs).trans (runSteps_eq_core_run n t)
    | fault r => exact h.2.1 r hs
    | refused r => exact h.2.2 r hs

end Sys2Proof.Machine
end

