-- ==== Sys2Proof/Tests/Slice0.lean ====
section
/-! SUPPORT. The model's own tests: expected results come from spec/95_test_vectors.md (the row is named) or from the
encoding tables of spec/30_encoding.md. The witnesses show states that meet each statement's hypotheses. -/

namespace Sys2Proof.Tests

open Sys2Proof.Machine

/-- The two signature bytes in memory. -/
def sig : Memory := [(0x7DFE, 0x55#8), (0x7DFF, 0xAA#8)]

/-- A machine in `EXEC` that runs, at `ip`, over memory `m`. -/
def engineAt (ip : Addr) (m : Memory) : State :=
  { State.reset with mem := m, ip := ip, phase := .exec, out := [.banner, .booting] }

/-- A machine as the constructor leaves it, with the host about to act. -/
def hostGives (h : List HostAction) : State := { State.reset with hostInput := h }

/-- A machine that has halted in `EXEC` with a cause. -/
def haltedAt (ip : Addr) (m : Memory) (c : Cause) (out : List Event) : State :=
  { State.reset with mem := m, ip := ip, run := false, phase := .exec, cause := c, out := out }

/-! ### WellFormed refuses -/

theorem test_wf_nearJump_refuses_254 : ¬ (Instr.nearJump 0xFE#8).WellFormed := by decide
theorem test_wf_unsupported_refuses_padding : ¬ (Instr.unsupported 0x00#8).WellFormed := by decide
theorem test_wf_unsupported_refuses_nearJump : ¬ (Instr.unsupported 0xEB#8).WellFormed := by decide
theorem test_wf_accepts : (Instr.nearJump 0xFF#8).WellFormed ∧ (Instr.unsupported 0xEC#8).WellFormed ∧
    Instr.padding.WellFormed ∧ Instr.selfHalt.WellFormed := by decide

/-! ### Decode: words written out from spec/30_encoding.md R51 to R53 and spec/95 section 2.1 -/

theorem test_decode_padding : decode [0b00000000#8, 0xAB#8] = .ok (.padding, [0xAB#8]) := by decide
theorem test_decode_selfHalt : decode [0b11101011#8, 0b11111110#8] = .ok (.selfHalt, []) := by decide
theorem test_decode_nearJump : decode [0b11101011#8, 0b00000010#8] = .ok (.nearJump 2#8, []) := by decide
theorem test_decode_unsupported_below : decode [0b11101010#8] = .ok (.unsupported 0xEA#8, []) := by decide
theorem test_decode_unsupported_above : decode [0b11101100#8] = .ok (.unsupported 0xEC#8, []) := by decide
theorem test_decode_missing_offset : decode [0xEB#8] = .error .noOffset := by decide
theorem test_table_words : decodeTableWord 8 0x00 = some .padding ∧ decodeTableWord 16 0xEBFE = some .selfHalt ∧
    decodeTableWord 16 0xEB00 = some (.nearJump 0#8) ∧ decodeTableWord 8 0x55 = some (.unsupported 0x55#8) := by decide

/-! ### Single steps: spec/95 section 2.2 -/

/-- S1 and S14. -/
theorem test_padding_wraps_nowhere : step (engineAt 0x7C00#17 []) = .next (engineAt 0x7C01#17 []) ∧
    step (engineAt 0xFFFF#17 []) = .next (engineAt 0x10000#17 []) := ⟨rfl, rfl⟩

/-- S6: the offset is unsigned. -/
theorem test_nearJump_unsigned : step (engineAt 0x7C00#17 [(0x7C00, 0xEB#8), (0x7C01, 0x80#8)]) =
    .next (engineAt 0x7C82#17 [(0x7C00, 0xEB#8), (0x7C01, 0x80#8)]) := rfl

/-- S17. -/
theorem test_nearJump_largest : step (engineAt 0xFFFE#17 [(0xFFFE, 0xEB#8), (0xFFFF, 0xFF#8)]) =
    .next (engineAt 0x100FF#17 [(0xFFFE, 0xEB#8), (0xFFFF, 0xFF#8)]) := rfl

/-- S8. -/
theorem test_selfHalt : step (engineAt 0x7C00#17 [(0x7C00, 0xEB#8), (0x7C01, 0xFE#8)]) =
    .next (haltedAt 0x7C00#17 [(0x7C00, 0xEB#8), (0x7C01, 0xFE#8)] .selfLoop [.banner, .booting]) := rfl

/-- S10. -/
theorem test_unsupported : step (engineAt 0x7C03#17 [(0x7C03, 0xFF#8)]) =
    .next (haltedAt 0x7C03#17 [(0x7C03, 0xFF#8)] .unsupportedOpcode
      [.banner, .booting, .diagUnsupported 0xFF#8 0x7C03#16]) := rfl

/-- S20: no fault at the last byte. -/
theorem test_unsupported_at_top : step (engineAt 0xFFFF#17 [(0xFFFF, 0xFF#8)]) =
    .next (haltedAt 0xFFFF#17 [(0xFFFF, 0xFF#8)] .unsupportedOpcode
      [.banner, .booting, .diagUnsupported 0xFF#8 0xFFFF#16]) := rfl

/-- S18 and S16. -/
theorem test_address_faults : step (engineAt 0x100FF#17 []) =
      .next (haltedAt 0x100FF#17 [] .addressFault [.banner, .booting, .addrFault 0x100FF#17]) ∧
    step (engineAt 0xFFFF#17 [(0xFFFF, 0xEB#8)]) =
      .next (haltedAt 0xFFFF#17 [(0xFFFF, 0xEB#8)] .addressFault [.banner, .booting, .addrFault 0x10000#17]) :=
  ⟨rfl, rfl⟩

/-! ### Sequencer, validator, loader: spec/95 sections 2.4, 2.5 and P1, P5 -/

theorem test_sigValid : sigValid sig = true ∧ sigValid [(0x7DFE, 0xAA#8), (0x7DFF, 0x55#8)] = false ∧
    sigValid [(0x7DFE, 0x55#8)] = false ∧ sigValid [] = false := by decide

/-- P5, and the boot of P1. -/
theorem test_boot : (boot State.reset).out = [.banner, .bootError] ∧ (boot State.reset).phase = .noBoot ∧
    (boot { State.reset with mem := sig }).out = [.banner, .booting] ∧
    (boot { State.reset with mem := sig }).phase = .exec := by decide

theorem test_loader : loadBytes [0xAB#8] 0x7C00 [] = .ok [(0x7C00, 0xAB#8)] ∧
    loadBytes [0x01#8, 0x02#8] 0xFFFF [] = .error .outOfRange ∧ loadBytes [0x01#8] 0xFFFF [] = .ok [(0xFFFF, 0x01#8)] ∧
    writeByte 0xFFFF 0xEB#8 [] = .ok [(0xFFFF, 0xEB#8)] ∧ writeByte 0x10000 0x00#8 [] = .error .outOfRange := by decide

/-- 513 bytes at 0xFFFF: the size is checked first. -/
theorem test_loader_too_large : loadBytes (List.replicate 513 0xFF#8) 0xFFFF [] = .error .imageTooLarge :=
  if_pos (by rw [List.length_replicate]; decide)

theorem test_memory_write_of_zero_unlists : Memory.write [(5, 0x01#8), (7, 0x02#8)] 5 0x00#8 = [(7, 0x02#8)] := by decide

/-- The digits of S10: `FF` and `7C03`. -/
theorem test_diag_digits :
    diagDigits (.diagUnsupported 0xFF#8 0x7C03#16) = some ([15, 15], [7, 12, 0, 3]) := by decide

/-- The codes of spec/10_state.md R17 and R18. -/
theorem test_status : status (haltedAt 0xFFFF#17 [] .addressFault []) =
    { phase := 1#3, cause := 3#2, run := 0#1, ip := 0xFFFF#17 } := by decide

/-- A listing in the notation of spec/30_encoding.md R58: `00`, `EB 02` from 0x7C00 and the signature from 0x7DFE. -/
theorem test_assemble : assemble [] 0 [.org 0x7C00, .padding, .nearJump 2, .org 0x7DFE, .bytes [0x55#8, 0xAA#8]] =
    some [(0x7C01, 0xEB#8), (0x7C02, 0x02#8), (0x7DFE, 0x55#8), (0x7DFF, 0xAA#8)] := by decide

/-- Entry 18: the last byte of memory can be placed, a byte at or past 0x10000 is refused. -/
theorem test_assemble_at_the_top : assemble [] 0 [.org 0xFFFF, .bytes [0x01#8]] = some [(0xFFFF, 0x01#8)] ∧
    assemble [] 0 [.org 0xFFFF, .selfHalt] = none ∧ assemble [] 0 [.org 0x10000, .padding] = none := by decide

/-! ### The placed instruction is the first after reset -/

theorem test_placed_nearJump : step (State.reset.withFetchWord 16 0xEB02) =
    .next { State.reset.withFetchWord 16 0xEB02 with ip := 0x7C04#17 } := rfl

/-! ### Witnesses: the hypotheses of each statement are met, clause by clause -/

theorem witness_ResetFromAnyStateAndNothingElse :
    ∃ t, (let s := { haltedAt 0xFFFF#17 sig .selfLoop [] with phase := .done, hostInput := [.reset] };
      s.resetComing = true ∧ step s = .next t ∧ isTerminal s.phase = true ∧ t.phase ≠ s.phase ∧
        s.run = false ∧ t.run = true) := ⟨State.reset, rfl, rfl, rfl, by decide, rfl, rfl⟩

theorem witness_OpcodeMapIsTotalAndExclusive : (0x01#8 : Byte) ≠ 0x00#8 ∧ (0x01#8 : Byte) ≠ 0xEB#8 := by decide

theorem witness_DecodeOfEncodeIsTheInstruction :
    (Instr.nearJump 0xFF#8).WellFormed ∧ (Instr.unsupported 0xFF#8).WellFormed := by decide

theorem witness_EncodeOfDecodeIsTheBytes : decode [0xEB#8, 0xFD#8, 0x00#8] = .ok (.nearJump 0xFD#8, [0x00#8]) := by decide

theorem witness_EncodingsArePrefixFree : (Instr.nearJump 1#8).WellFormed ∧
    encode (.nearJump 1#8) ++ [0x00#8] = encode (.nearJump 1#8) ++ [0x00#8] := by decide

theorem witness_FirstByteTellsTheLength : decode [0xEB#8, 0x00#8] = .ok (.nearJump 0#8, []) ∧
    decode [0xEC#8] = .ok (.unsupported 0xEC#8, []) ∧ decode [] = .error .noOpcode ∧ decode [0xEB#8] = .error .noOffset := by
  decide

theorem witness_AssemblerNotationDecodesBack : asmBytes (.nearJump 255) = some [0xEB#8, 0xFF#8] ∧
    asmBytes (.nearJump 254) = none ∧ asmBytes (.nearJump 256) = none := by decide

theorem witness_ByteReadsAreBoundsChecked : (0xFFFF#17 : Addr).toNat < 0x10000 ∧ 0x10000 ≤ (0x10000#17 : Addr).toNat := by decide

theorem witness_CanonicalMemoriesAreExtensional :
    sig.wf = true ∧ (Memory.write sig 0x7C00 0x00#8).wf = true ∧ ∀ a, sig.read a = (Memory.write sig 0x7C00 0x00#8).read a :=
  ⟨by decide, by decide, fun _ => rfl⟩

theorem witness_StepKeepsMemoryCanonical : ∃ t, step { hostGives [.write 0xFFFF 0x01#8] with mem := sig } = .next t ∧
    sig.wf = true ∧ t.mem = sig ++ [(0xFFFF, 0x01#8)] := ⟨_, rfl, by decide, rfl⟩

theorem witness_MemoryIsImmutableAfterStart :
    (∃ t, step (engineAt 0x7C00#17 sig) = .next t ∧ (engineAt 0x7C00#17 sig).phase ≠ .reset ∧
      (engineAt 0x7C00#17 sig).resetComing = false) ∧
    (Phase.done ≠ .reset ∧ (hostGives [.write 0 1#8]).hostInput = .write 0 1#8 :: []) ∧
    (hostGives [.loadImage [1#8] 0]).hostInput = .loadImage [1#8] 0 :: [] :=
  ⟨⟨_, rfl, by decide, rfl⟩, by decide, rfl⟩

theorem witness_HostWriteStoresOneByte :
    (hostGives [.write 0xFFFF 1#8]).phase = .reset ∧ (hostGives [.write 0xFFFF 1#8]).mem.wf = true ∧
    step (hostGives [.write 0xFFFF 1#8]) = .next { State.reset with mem := [(0xFFFF, 1#8)] } ∧
    step (hostGives [.write 0x10000 1#8]) = .next { State.reset with loadErrors := [.outOfRange] } :=
  ⟨rfl, rfl, rfl, rfl⟩

theorem witness_LoadImageCopiesTheImage :
    (hostGives [.loadImage [1#8] 0xFFFF]).phase = .reset ∧ [1#8].length ≤ 512 ∧ 0xFFFF + [1#8].length ≤ 65536 ∧
    step (hostGives [.loadImage [1#8] 0xFFFF]) = .next { State.reset with mem := [(0xFFFF, 1#8)] } :=
  ⟨rfl, by decide, by decide, rfl⟩

theorem witness_LoadImageFailsWithoutEffect :
    512 < (List.replicate 513 0xFF#8).length ∧ [1#8, 2#8].length ≤ 512 ∧ 65536 < 0xFFFF + [1#8, 2#8].length :=
  ⟨by rw [List.length_replicate]; decide, by decide, by decide⟩

theorem witness_BootableImagesEndInTheSignature :
    loadBytes [0xEB#8, 0xFE#8] 0x7C00 State.reset.mem = .ok [(0x7C00, 0xEB#8), (0x7C01, 0xFE#8)] := by decide

theorem witness_StartBootsOnlyFromReset :
    sigValid { hostGives [.start] with mem := sig }.mem = true ∧ sigValid (hostGives [.start]).mem = false ∧
    (hostGives [.start]).phase = .reset ∧ { engineAt 0x7C00#17 sig with hostInput := [.start] }.phase ≠ .reset := by decide

/-- A self-loop halt at the entry, with the invariant. -/
def loopHalted : State :=
  haltedAt 0x7C00#17 ([(0x7C00, 0xEB#8), (0x7C01, 0xFE#8)] ++ sig) .selfLoop [.banner, .booting]

theorem witness_FinishEmitsWaiting :
    loopHalted.hostQuiet = true ∧ loopHalted.phase = .exec ∧ loopHalted.run = false ∧ loopHalted.cause = .selfLoop ∧
    (∃ t, step loopHalted = .next t ∧ t.phase = .done ∧ t.resetComing = false ∧ ∃ u, step t = .next u) :=
  ⟨rfl, rfl, rfl, rfl, _, rfl, rfl, rfl, _, rfl⟩

theorem witness_FinishEmitsWaiting_final : ∃ s : State, s.Inv ∧ s.phase = .done ∧ s.cause = .selfLoop :=
  ⟨{ loopHalted with phase := .done, out := [.banner, .booting, .waiting] },
    ⟨rfl, by decide, by decide, rfl, ⟨.inl rfl, rfl⟩, rfl⟩, rfl, rfl⟩

theorem witness_FinishEmitsWaiting_final_unsupported :
    ∃ s : State, s.Inv ∧ s.phase = .done ∧ s.cause = .unsupportedOpcode :=
  ⟨{ haltedAt 0x7DFE#17 sig .unsupportedOpcode [.banner, .booting, .diagUnsupported 0x55#8 0x7DFE#16, .waiting] with
      phase := .done },
    ⟨rfl, by decide, by decide, rfl, ⟨.inr rfl, rfl⟩, rfl⟩, rfl, rfl⟩

/-- An address fault at the first address above memory. -/
def faultHalted : State := haltedAt 0x10000#17 sig .addressFault [.banner, .booting, .addrFault 0x10000#17]

theorem witness_FinishAfterFaultEmitsNothing :
    faultHalted.hostQuiet = true ∧ faultHalted.phase = .exec ∧ faultHalted.run = false ∧
    faultHalted.cause = .addressFault ∧
    (∃ t, step faultHalted = .next t ∧ t.phase = .faulted ∧ t.resetComing = false ∧ ∃ u, step t = .next u) :=
  ⟨rfl, rfl, rfl, rfl, _, rfl, rfl, rfl, _, rfl⟩

theorem witness_FinishAfterFaultEmitsNothing_final : ∃ s : State, s.Inv ∧ s.phase = .faulted :=
  ⟨{ faultHalted with phase := .faulted }, ⟨rfl, by decide, by decide, rfl, ⟨rfl, rfl⟩, rfl⟩, rfl⟩

theorem witness_PhaseGraphIsComplete :
    (∃ t, step (hostGives [.reset]) = .next t ∧ (hostGives [.reset]).resetComing = true) ∧
    (∃ t, step (hostGives [.start]) = .next t ∧ (hostGives [.start]).resetComing = false ∧ (hostGives [.start]).phase = .reset) ∧
    (∃ t, step loopHalted = .next t ∧ loopHalted.resetComing = false ∧ loopHalted.phase = .exec) ∧
    (∃ t, step { loopHalted with phase := .done } = .next t ∧ isTerminal Phase.done = true) :=
  ⟨⟨_, rfl, rfl⟩, ⟨_, rfl, rfl, rfl⟩, ⟨_, rfl, rfl, rfl⟩, ⟨_, rfl, rfl⟩⟩

theorem witness_StepRunsTheDecodedInstruction :
    (engineAt 0xFFFE#17 [(0xFFFE, 0xEB#8)]).StepEnabled ∧
    decode (bytesAhead (engineAt 0xFFFE#17 [(0xFFFE, 0xEB#8)])) = .ok (.nearJump 0#8, []) ∧
    decode (bytesAhead (engineAt 0xFFFF#17 [(0xFFFF, 0xEB#8)])) = .error .noOffset ∧
    decode (bytesAhead (engineAt 0x10000#17 [])) = .error .noOpcode := by decide

theorem witness_PlacedWordIsRunNext :
    State.reset.mem.wf = true ∧ decodeTableWord 16 0xEBFE = some .selfHalt ∧ decodeTableWord 8 0x00 = some .padding := by decide

theorem witness_PaddingAdvancesByOne :
    (engineAt 0xFFFF#17 []).StepEnabled ∧ (engineAt 0xFFFF#17 []).InMemory ∧ (engineAt 0xFFFF#17 []).opcode = 0x00#8 ∧
    (engineAt 0x10000#17 []).hostQuiet = true := by decide

theorem witness_NearJumpAddsTwoAndTheOffset :
    (let s := engineAt 0xFFFE#17 [(0xFFFE, 0xEB#8), (0xFFFF, 0xFF#8)];
      s.StepEnabled ∧ s.ip.toNat < 0xFFFF ∧ s.opcode = 0xEB#8 ∧ s.offset ≠ 0xFE#8 ∧ s.InMemory) ∧
    (let s := engineAt 0xFFFF#17 [(0xFFFF, 0xEB#8)];
      s.StepEnabled ∧ s.ip.toNat = 0xFFFF ∧ s.opcode = 0xEB#8) := by decide

theorem witness_SelfHaltStopsTheEngine :
    (let s := engineAt 0xFFFE#17 [(0xFFFE, 0xEB#8), (0xFFFF, 0xFE#8)];
      s.StepEnabled ∧ s.ip.toNat < 0xFFFF ∧ s.opcode = 0xEB#8 ∧ s.offset = 0xFE#8) ∧
    (let s := engineAt 0xFFFF#17 [(0xFFFF, 0xEB#8)];
      s.StepEnabled ∧ s.ip.toNat = 0xFFFF ∧ s.opcode = 0xEB#8) ∧ loopHalted.hostQuiet = true := by decide

theorem witness_UnsupportedReportsAndStops :
    let s := engineAt 0xFFFF#17 [(0xFFFF, 0xFF#8)]
    s.StepEnabled ∧ s.InMemory ∧ s.opcode ≠ 0x00#8 ∧ s.opcode ≠ 0xEB#8 := by decide

theorem witness_JumpFormsChangeOnlyIp :
    (∃ t, exec .padding loopHalted = .next t) ∧ ∃ t, exec (.nearJump 0xFF#8) loopHalted = .next t := ⟨⟨_, rfl⟩, _, rfl⟩

theorem witness_HaltingFormsChangeOnlyRunCauseOut :
    (∃ t, exec .selfHalt State.reset = .next t) ∧ ∃ t, exec (.unsupported 0x01#8) State.reset = .next t := ⟨⟨_, rfl⟩, _, rfl⟩

theorem witness_AddressFaultEntry :
    (engineAt 0x10000#17 []).StepEnabled ∧ 0x10000 ≤ (engineAt 0x10000#17 []).ip.toNat ∧
    (let s := engineAt 0xFFFF#17 [(0xFFFF, 0xEB#8)];
      s.StepEnabled ∧ s.ip.toNat = 0xFFFF ∧ s.opcode = 0xEB#8) ∧ faultHalted.hostQuiet = true := by decide

theorem witness_PriorityAtTheTopOfMemory :
    (let s := engineAt 0xFFFF#17 [(0xFFFF, 0xEB#8)];
      s.StepEnabled ∧ s.ip.toNat = 0xFFFF ∧ s.hostInput = [] ∧ s.opcode = 0xEB#8) ∧
    (engineAt 0xFFFF#17 []).opcode = 0x00#8 ∧
    (let s := engineAt 0xFFFF#17 [(0xFFFF, 0x90#8)];
      s.opcode ≠ 0xEB#8 ∧ s.opcode ≠ 0x00#8) := by decide

theorem witness_AddressFaultsOnlyAboveMemory :
    ((engineAt 0x100FF#17 []).StepEnabled ∧ (engineAt 0x100FF#17 []).IpInRange) ∧
    (∃ t, step (engineAt 0x100FF#17 []) = .next t ∧ t.out = (engineAt 0x100FF#17 []).out ++ [.addrFault 0x100FF#17]) ∧
    (engineAt 0xFFFE#17 []).StepEnabled ∧ (engineAt 0xFFFE#17 []).IpInRange ∧
    (∃ t, step (engineAt 0xFFFE#17 []) = .next t) := ⟨by decide, ⟨_, rfl, rfl⟩, by decide, by decide, _, rfl⟩

theorem witness_StepHasNoOtherEffect : (engineAt 0xFFFF#17 []).StepEnabled ∧
    ∃ t, step (engineAt 0xFFFF#17 []) = .next t ∧ t.run = true := ⟨by decide, _, rfl, rfl⟩

theorem witness_ThreeThingsClearRun : ∃ t, step (engineAt 0x10000#17 []) = .next t ∧ (engineAt 0x10000#17 []).run = true :=
  ⟨_, rfl, rfl⟩

theorem witness_IpRisesWhileRunning :
    (∃ t, step (engineAt 0xFFFF#17 []) = .next t ∧ (engineAt 0xFFFF#17 []).resetComing = false ∧
      (engineAt 0xFFFF#17 []).StepEnabled ∧ t.run = true) ∧
    (∃ t, step (engineAt 0x10000#17 []) = .next t ∧ (engineAt 0x10000#17 []).StepEnabled ∧ t.run = false) :=
  ⟨⟨_, rfl, rfl, by decide, rfl⟩, _, rfl, by decide, rfl⟩

theorem witness_StepReadsOnlyTheInstructionsBytes :
    let s := engineAt 0x7C00#17 [(0x7C00, 0xEB#8), (0x7C01, 0x05#8)]
    let t := engineAt 0x7C00#17 ([(0x7C00, 0xEB#8), (0x7C01, 0x05#8)] ++ sig)
    s.StepEnabled ∧ t.StepEnabled ∧ s.ip = t.ip ∧ s.cause = t.cause ∧ s.opcode = t.opcode ∧ s.offset = t.offset := by decide

theorem witness_OutputNeverInfluencesTheMachine : ∃ t, step (hostGives [.start]) = .next t := ⟨_, rfl⟩

theorem witness_ConsecutivePaddingsAddUp :
    let s := engineAt 0xFFFE#17 []
    s.StepEnabled ∧ s.hostInput = [] ∧ s.ip.toNat + 2 ≤ 0x10000 ∧ ∀ j, j < 2 → s.mem.read (s.ip.toNat + j) = 0x00#8 := by decide

theorem witness_StepKeepsRunIffNoCause :
    ∃ t, step (engineAt 0x10000#17 []) = .next t ∧ (engineAt 0x10000#17 []).RunIffNoCause := ⟨_, rfl, by decide⟩

theorem witness_StepKeepsIpInRange : ∃ t, step (engineAt 0xFFFE#17 [(0xFFFE, 0xEB#8), (0xFFFF, 0xFF#8)]) = .next t ∧
    (engineAt 0xFFFE#17 [(0xFFFE, 0xEB#8), (0xFFFF, 0xFF#8)]).IpInRange := ⟨_, rfl, by decide⟩

theorem witness_StepKeepsTheMachineInvariant : ∃ t, step (engineAt 0x7C00#17 sig) = .next t ∧ (engineAt 0x7C00#17 sig).Inv :=
  ⟨_, rfl, ⟨rfl, by decide, by decide, trivial, rfl, rfl⟩⟩

theorem witness_InvariantStatesNeverStick :
    ∃ s : State, s.Inv ∧ s.phase ≠ .reset ∧ s.hostInput.head? = some (.write 0 1#8) :=
  ⟨{ engineAt 0x7C00#17 sig with hostInput := [.write 0 1#8] }, ⟨rfl, by decide, by decide, trivial, rfl, rfl⟩, by decide, rfl⟩

theorem witness_EngineLoopEnds :
    (engineAt 0x7C00#17 sig).StepEnabled ∧ (engineAt 0x7C00#17 sig).hostInput = [] ∧
    0x7C00 ≤ (engineAt 0x7C00#17 sig).ip.toNat := by decide

theorem witness_EveryRunReachesOneOfFourOutcomes : ∃ s : State, s.Inv ∧ s.phase = .reset ∧ s.hostInput = [.start] ∧
    sigValid s.mem = true :=
  ⟨{ hostGives [.start] with mem := sig }, ⟨rfl, by decide, by decide, trivial, ⟨rfl, rfl⟩, rfl⟩, rfl, rfl, by decide⟩

/-- The first outcome: no signature. -/
theorem witness_EveryRunReachesOneOfFourOutcomes_noBoot :
    (hostGives [.start]).Inv ∧ (hostGives [.start]).phase = .reset ∧ (hostGives [.start]).hostInput = [.start] ∧
      ∃ t, runSteps 1 (hostGives [.start]) = .next t ∧ t.phase = .noBoot ∧ t.out = [.banner, .bootError] :=
  ⟨⟨rfl, by decide, by decide, trivial, ⟨rfl, rfl⟩, rfl⟩, rfl, rfl, _, rfl, rfl, rfl⟩

/-- The second and the third: the signature, and a self-loop or an unsupported byte at the entry. -/
theorem witness_EveryRunReachesOneOfFourOutcomes_done :
    (let s : State := { hostGives [.start] with mem := (0x7C00, 0xEB#8) :: (0x7C01, 0xFE#8) :: sig };
      s.Inv ∧ s.phase = .reset ∧ s.hostInput = [.start] ∧
        ∃ t, runSteps 3 s = .next t ∧ t.phase = .done ∧ t.cause = .selfLoop) ∧
    (let s : State := { hostGives [.start] with mem := (0x7C00, 0xFF#8) :: sig };
      s.Inv ∧ s.phase = .reset ∧ s.hostInput = [.start] ∧
        ∃ t, runSteps 3 s = .next t ∧ t.phase = .done ∧ t.cause = .unsupportedOpcode) :=
  ⟨⟨⟨rfl, by decide, by decide, trivial, ⟨rfl, rfl⟩, rfl⟩, rfl, rfl, _, rfl, rfl, rfl⟩,
    ⟨⟨rfl, by decide, by decide, trivial, ⟨rfl, rfl⟩, rfl⟩, rfl, rfl, _, rfl, rfl, rfl⟩⟩

end Sys2Proof.Tests
end

/-! # The state: canonical memories, the invariants of one transition, and the console sink

The statements of spec/10_state.md. Each invariant is read off a summary of what one transition does to the fields it
speaks of (`step_mem_cases`, `step_registers_cases`). -/

namespace Sys2Proof.Machine

/-! ## Canonical memories (spec/10_state.md R11) -/

theorem Memory.read_cons_self (a : Nat) (b : Byte) (m : Memory) : Memory.read ((a, b) :: m) a = b := if_pos rfl

theorem Memory.read_cons_of_ne {a x : Nat} (h : x ≠ a) (b : Byte) (m : Memory) :
    Memory.read ((a, b) :: m) x = m.read x := if_neg h

/-- The first listed address of a canonical memory is the lowest whose byte is not the empty one. -/
theorem Memory.head_le_of_read_ne {lo a x : Nat} {b : Byte} {m : Memory} (h : Memory.wfFrom lo ((a, b) :: m) = true)
    (hx : Memory.read ((a, b) :: m) x ≠ Config.emptyByte) : a ≤ x := by
  obtain ⟨-, hsz, hb, hrest⟩ := Memory.wfFrom_cons.1 h
  by_contra lt
  exact hx (Memory.read_of_lt (Memory.wfFrom_cons.2 ⟨le_rfl, hsz, hb, hrest⟩) (by omega))

theorem Memory.read_head_ne {lo a : Nat} {b : Byte} {m : Memory} (h : Memory.wfFrom lo ((a, b) :: m) = true) :
    Memory.read ((a, b) :: m) a ≠ Config.emptyByte := by
  rw [Memory.read_cons_self]
  exact (Memory.wfFrom_cons.1 h).2.2.1

/-- Canonical memories with the same first address that read alike have tails that read alike. -/
theorem Memory.read_tail_eq {lo lo' a : Nat} {b b' : Byte} {m m' : Memory}
    (hm : Memory.wfFrom lo ((a, b) :: m) = true) (hm' : Memory.wfFrom lo' ((a, b') :: m') = true)
    (h : ∀ x, Memory.read ((a, b) :: m) x = Memory.read ((a, b') :: m') x) (x : Nat) : m.read x = m'.read x := by
  obtain ⟨-, -, -, hrest⟩ := Memory.wfFrom_cons.1 hm
  obtain ⟨-, -, -, hrest'⟩ := Memory.wfFrom_cons.1 hm'
  by_cases hx : x = a
  · rw [Memory.read_of_lt hrest (by omega), Memory.read_of_lt hrest' (by omega)]
  · simpa only [Memory.read_cons_of_ne hx] using h x

/-- Canonical memories that read alike are equal, wherever their addresses are known to start. -/
theorem Memory.eq_of_read_eq : ∀ {m m' : Memory} {lo lo' : Nat}, Memory.wfFrom lo m = true →
    Memory.wfFrom lo' m' = true → (∀ x, m.read x = m'.read x) → m = m'
  | [], [], _, _, _, _, _ => rfl
  | [], (a, _) :: _, _, _, _, hm', h => absurd (h a).symm (Memory.read_head_ne hm')
  | (a, _) :: _, [], _, _, hm, _, h => absurd (h a) (Memory.read_head_ne hm)
  | (a, b) :: m, (a', b') :: m', _, _, hm, hm', h => by
    have hle : a ≤ a' := Memory.head_le_of_read_ne hm (h a' ▸ Memory.read_head_ne hm')
    have hge : a' ≤ a := Memory.head_le_of_read_ne hm' (h a ▸ Memory.read_head_ne hm)
    obtain rfl : a = a' := Nat.le_antisymm hle hge
    have hb : b = b' := by simpa only [Memory.read_cons_self] using h a
    have htail : m = m' := Memory.eq_of_read_eq (Memory.wfFrom_cons.1 hm).2.2.2 (Memory.wfFrom_cons.1 hm').2.2.2
      (Memory.read_tail_eq hm hm' h)
    rw [hb, htail]

/-- Settles O12: the first listed address is determined by the reads, and so is the rest. -/
theorem canonicalMemoriesAreExtensional : Obligations.CanonicalMemoriesAreExtensional :=
  fun _ _ hm hm' h => Memory.eq_of_read_eq hm hm' h

/-! ## What one transition does to memory and to the registers -/

section
variable (s : State)

-- The frame of `BOOT`, which writes `PHASE` and `OUT` only (spec/44_boot_sequence.md R101).
@[simp] theorem boot_mem : (boot s).mem = s.mem := by rw [boot_eq]; split <;> rfl
@[simp] theorem boot_ip : (boot s).ip = s.ip := by rw [boot_eq]; split <;> rfl
@[simp] theorem boot_run : (boot s).run = s.run := by rw [boot_eq]; split <;> rfl
@[simp] theorem boot_cause : (boot s).cause = s.cause := by rw [boot_eq]; split <;> rfl

end

/-- No instruction writes memory (spec/20_memory.md R43). -/
theorem exec_next_mem {i : Instr} {s t : State} (h : exec i s = .next t) : t.mem = s.mem := by
  cases i <;> cases h <;> rfl

/-- A transition keeps memory, or it is the reset, or it stores what the loader accepts in phase `RESET`. -/
theorem step_mem_cases {s t : State} (h : step s = .next t) :
    t.mem = s.mem ∨ (s.resetComing = true ∧ t.mem = State.reset.mem) ∨
      (s.phase = .reset ∧ (s.mem.wf = true → t.mem.wf = true)) := by
  cases step_cases h with
  | instr _ i _ ex => exact .inl (exec_next_mem (s := s.afterTurn) ex)
  | reset hr eq => exact .inr (.inl ⟨hr, by simp [eq]⟩)
  | write a b _ phase m ok eq => exact .inr (.inr ⟨phase, fun hm => by simpa [eq] using writeByte_wf hm ok⟩)
  | load bs base _ phase m ok eq => exact .inr (.inr ⟨phase, fun hm => by simpa [eq] using loadBytes_wf hm ok⟩)
  | _ => left; simp [*]

/-- A transition keeps `IP`, `RUN` and `CAUSE`, or it is the reset, or it is an enabled STEP. -/
theorem step_registers_cases {s t : State} (h : step s = .next t) :
    (t.ip = s.ip ∧ t.run = s.run ∧ t.cause = s.cause) ∨ t = hostReset s.afterTurn ∨ EnabledCase s t := by
  cases step_cases h with
  | instr en _ _ _ => exact .inr (.inr (enabled_cases en h))
  | addressFault en _ _ _ => exact .inr (.inr (enabled_cases en h))
  | reset _ eq => exact .inr (.inl eq)
  | _ => left; simp [*]

/-- Settles O13: reset leaves the empty memory, the loader keeps the form, and nothing else writes memory. -/
theorem stepKeepsMemoryCanonical : Obligations.StepKeepsMemoryCanonical := by
  intro s t h hm
  obtain hmem | ⟨-, hmem⟩ | ⟨-, hwf⟩ := step_mem_cases h
  · rwa [hmem]
  · rw [hmem]
    exact Memory.wf_reset
  · exact hwf hm

/-- Settles O14: only reset and the loader write memory, and the loader is refused after start. -/
theorem memoryIsImmutableAfterStart : Obligations.MemoryIsImmutableAfterStart := by
  refine ⟨fun s t h started noReset => ?_, fun s a b rest started hs => ?_, fun s bs base rest started hs => ?_⟩
  · obtain hmem | ⟨reset, -⟩ | ⟨phase, -⟩ := step_mem_cases h
    · exact hmem
    · simp [noReset] at reset
    · exact absurd phase started
  · rw [step_of_host hs]
    exact hostLoad_of_started started
  · rw [step_of_host hs]
    exact hostLoad_of_started started

/-! ## The invariants of the registers -/

/-- Settles O42: a STEP that goes on writes neither `RUN` nor `CAUSE`, and a halt writes both. -/
theorem stepKeepsRunIffNoCause : Obligations.StepKeepsRunIffNoCause := by
  intro s t h hs
  obtain ⟨-, hrun, hcause⟩ | rfl | enabled := step_registers_cases h
  · rwa [State.RunIffNoCause, hrun, hcause]
  · simp [State.RunIffNoCause, State.reset]
  · cases enabled with
    | padding _ _ eq => exact eq ▸ hs
    | nearJump _ _ _ eq => exact eq ▸ hs
    | _ => simp [State.RunIffNoCause, *]

/-- Settles O43: a padding moves `IP` from an address of memory by 1, a near-jump from below 0xFFFF by at most 257. -/
theorem stepKeepsIpInRange : Obligations.StepKeepsIpInRange := by
  intro s t h hs
  obtain ⟨hip, -, -⟩ | rfl | enabled := step_registers_cases h
  · rwa [State.IpInRange, hip]
  · exact ⟨le_rfl, (by decide : Config.entryAddr.toNat ≤ Config.maxIp)⟩
  · cases enabled with
    | padding lt _ eq =>
      have hip := nextByte_toNat lt
      simp only [State.IpInRange, State.InMemory, Config.memSize, Config.maxIp, eq, State.setIp_ip] at *
      omega
    | nearJump lt _ _ eq =>
      have hip := jumpTarget_toNat s.offset (lt.trans (by decide))
      have := s.offset.isLt
      simp only [State.IpInRange, Config.maxIp, eq, State.setIp_ip] at *
      omega
    | selfHalt _ _ _ eq => exact eq ▸ hs
    | unsupported _ _ _ eq => exact eq ▸ hs
    | opcodeFault _ eq => exact eq ▸ hs
    | offsetFault _ _ eq => exact eq ▸ hs

/-! ## Reset and the status read -/

/-- Settles O1: an empty list of cells reads the empty byte everywhere. -/
theorem resetLeavesTheSpecsValues : Obligations.ResetLeavesTheSpecsValues :=
  ⟨fun _ => rfl, rfl, rfl, rfl, rfl, rfl⟩

/-- Settles O45: the reset state meets each clause of the invariant, `OUT` being the empty trace of phase `RESET`. -/
theorem resetMeetsTheMachineInvariant : Obligations.ResetMeetsTheMachineInvariant where
  memWf := Memory.wf_reset
  ipInRange := ⟨le_rfl, by decide⟩
  runIffNoCause := by decide
  causeJustified := trivial
  phaseConsistent := ⟨rfl, rfl⟩
  outExpected := rfl

/-- Different phases have different codes (spec/10_state.md R17). -/
theorem phaseCode_injective : Function.Injective phaseCode := by
  intro p q
  cases p <;> cases q <;> decide

/-- Different causes have different codes (spec/10_state.md R18). -/
theorem causeCode_injective : Function.Injective causeCode := by
  intro c d
  cases c <;> cases d <;> decide

theorem ofBool_injective : Function.Injective BitVec.ofBool := by
  intro a b
  cases a <;> cases b <;> decide

/-- Settles O41: each field of the status is an injective code of its register. -/
theorem statusReadTellsTheRegisters : Obligations.StatusReadTellsTheRegisters := by
  refine ⟨fun s t => ?_, rfl, rfl⟩
  rw [status, status, Status.mk.injEq, phaseCode_injective.eq_iff, causeCode_injective.eq_iff, ofBool_injective.eq_iff]

/-! ## The console sink is never read (spec/10_state.md R19) -/

/-- `s` with other output and other loader reports. -/
def State.withOutput (o : List Event) (e : List LoadError) (s : State) : State := { s with out := o, loadErrors := e }

section
variable (o : List Event) (e : List LoadError) (s : State)

@[simp] theorem State.withOutput_mem : (s.withOutput o e).mem = s.mem := rfl
@[simp] theorem State.withOutput_run : (s.withOutput o e).run = s.run := rfl
@[simp] theorem State.withOutput_phase : (s.withOutput o e).phase = s.phase := rfl
@[simp] theorem State.withOutput_cause : (s.withOutput o e).cause = s.cause := rfl
@[simp] theorem State.withOutput_hostInput : (s.withOutput o e).hostInput = s.hostInput := rfl
@[simp] theorem fetch_withOutput : fetch (s.withOutput o e) = fetch s := rfl

end

/-- Other output and other reports change nothing in what `f` answers but the output and the reports. -/
def OutputBlind (f : State → Host.Outcome State Fault Refusal) : Prop :=
  ∀ s t o e, f s = .next t → ∃ o' e', f (s.withOutput o e) = .next (t.withOutput o' e')

/-- What always answers a next state is blind if that state differs in output and reports only. -/
theorem outputBlind_next {f : State → State}
    (h : ∀ s o e, ∃ o' e', f (s.withOutput o e) = (f s).withOutput o' e') : OutputBlind fun s => .next (f s) := by
  rintro s _ o e ⟨⟩
  obtain ⟨o', e', eq⟩ := h s o e
  exact ⟨o', e', congrArg _ eq⟩

theorem exec_outputBlind (i : Instr) : OutputBlind (exec i) := by
  cases i <;> exact outputBlind_next fun _ _ _ => ⟨_, _, rfl⟩

theorem engineStep_outputBlind : OutputBlind engineStep := by
  intro s t o e h
  simp only [engineStep, fetch_withOutput] at h ⊢
  cases hf : fetch s with
  | ok i =>
    rw [hf] at h
    exact exec_outputBlind i s t o e h
  | error a =>
    rw [hf] at h
    cases h
    exact ⟨_, _, rfl⟩

theorem finish_outputBlind : OutputBlind finish := by
  intro s t o e h
  simp only [finish, State.withOutput_cause] at h ⊢
  cases hc : s.cause <;> rw [hc] at h <;> cases h <;> exact ⟨_, _, rfl⟩

theorem blockTransition_outputBlind : OutputBlind blockTransition := by
  intro s t o e h
  cases hp : s.phase <;> simp only [blockTransition, State.withOutput_phase, State.withOutput_run, hp] at h ⊢
  case exec =>
    by_cases hr : s.run = true <;> simp only [hr, Bool.false_eq_true, if_true, if_false] at h ⊢
    · exact engineStep_outputBlind s t o e h
    · exact finish_outputBlind s t o e h
  all_goals
    cases h
    exact ⟨_, _, rfl⟩

theorem hostLoad_outputBlind (r : Except LoadError Memory) : OutputBlind (hostLoad r) := by
  intro s t o e h
  simp only [hostLoad, State.withOutput_phase] at h ⊢
  cases hp : s.phase <;> rw [hp] at h <;> cases r <;> cases h <;> exact ⟨_, _, rfl⟩

theorem hostStart_withOutput (s : State) (o : List Event) (e : List LoadError) :
    ∃ o' e', hostStart (s.withOutput o e) = (hostStart s).withOutput o' e' := by
  cases hp : s.phase <;> simp only [hostStart, State.withOutput_phase, hp]
  case reset =>
    simp only [boot_eq, State.withOutput_mem]
    by_cases sig : sigValid s.mem = true <;> simp only [sig, Bool.false_eq_true, if_true, if_false] <;>
      exact ⟨_, _, rfl⟩
  all_goals exact ⟨_, _, rfl⟩

theorem hostTransition_outputBlind (a : HostAction) : OutputBlind (hostTransition a) := by
  cases a with
  | idle => exact blockTransition_outputBlind
  | reset => exact outputBlind_next fun _ _ _ => ⟨_, _, rfl⟩
  | write a b => exact fun s => hostLoad_outputBlind (writeByte a b s.mem) s
  | loadImage bs base => exact fun s => hostLoad_outputBlind (loadBytes bs base s.mem) s
  | start => exact outputBlind_next hostStart_withOutput

theorem step_outputBlind : OutputBlind step := by
  intro s t o e h
  cases hs : s.hostInput with
  | nil =>
    rw [step, transition, hs] at h
    rw [step, transition, State.withOutput_hostInput, hs]
    exact blockTransition_outputBlind s t o e h
  | cons a rest =>
    rw [step_of_host hs] at h
    rw [step_of_host (show (s.withOutput o e).hostInput = a :: rest from hs)]
    exact hostTransition_outputBlind a (s.setHostInput rest) t o e h

/-- Settles O39: every part of the step is blind to the output and the reports. -/
theorem outputNeverInfluencesTheMachine : Obligations.OutputNeverInfluencesTheMachine := by
  intro s t o e h
  obtain ⟨o', e', eq⟩ := step_outputBlind s t o e h
  exact ⟨t.withOutput o' e', eq, rfl, rfl, rfl, rfl, rfl, rfl⟩

end Sys2Proof.Machine

/-! # Memory access: the byte-read interface (spec/20_memory.md) -/

namespace Sys2Proof.Machine

/-- Settles O11: `memRead_eq_ok` and `memRead_eq_error` say which addresses answer the byte (R31) and which answer
the fault (R32), and `Config.memSize` is 0x10000. -/
theorem byteReadsAreBoundsChecked : Obligations.ByteReadsAreBoundsChecked := by
  intro m a
  constructor
  · intro inside
    exact memRead_eq_ok.2 ⟨inside, rfl⟩
  · intro outside
    exact memRead_eq_error.2 ⟨outside, rfl⟩

end Sys2Proof.Machine

/-! # Encoding: the opcode map, the decoder and the encoder (spec/30_encoding.md)

What the decoder can answer is said once, by `decode_cases`: an encoding of a well-formed instruction and the bytes
after it, or one of the two rejections. -/

namespace Sys2Proof

/-! ## The class of an opcode byte and the operand check (R55) -/

theorem classOf_eq_nearJump {b : Byte} : classOf b = .nearJump ↔ b = Config.opNearJump := by
  unfold classOf
  split_ifs <;> simp_all

theorem classOf_eq_padding {b : Byte} : classOf b = .padding ↔ b = Config.opPadding := by
  unfold classOf
  split_ifs with nj np
  · simp [nj, Config.opNearJump, Config.opPadding]
  · simp [np]
  · simp [np]

theorem classOf_eq_unsupported {b x : Byte} :
    classOf b = .unsupported x ↔ x = b ∧ b ≠ Config.opNearJump ∧ b ≠ Config.opPadding := by
  unfold classOf
  split_ifs with nj np
  · simp [nj]
  · simp [np]
  · simp [nj, np, eq_comm]

theorem Instr.wellFormed_nearJump {off : Byte} : (Instr.nearJump off).WellFormed ↔ off ≠ Config.offSelfHalt := by
  simp [Instr.WellFormed, Instr.wf]

theorem Instr.wellFormed_unsupported {b : Byte} :
    (Instr.unsupported b).WellFormed ↔ b ≠ Config.opPadding ∧ b ≠ Config.opNearJump := by
  simp [Instr.WellFormed, Instr.wf]

/-! ## The decoder on each form of its input -/

theorem decode_padding (rest : List Byte) : decode (Config.opPadding :: rest) = .ok (.padding, rest) := rfl

theorem decode_nearJump (off : Byte) (rest : List Byte) :
    decode (Config.opNearJump :: off :: rest) = .ok (nearJumpForm off, rest) := rfl

theorem decode_nearJump_of_ne {off : Byte} (h : off ≠ Config.offSelfHalt) (rest : List Byte) :
    decode (Config.opNearJump :: off :: rest) = .ok (.nearJump off, rest) := by
  rw [decode_nearJump, nearJumpForm, if_neg h]

theorem decode_unsupported {b : Byte} (np : b ≠ Config.opPadding) (nj : b ≠ Config.opNearJump) (rest : List Byte) :
    decode (b :: rest) = .ok (.unsupported b, rest) := by
  simp only [decode, classOf_eq_unsupported.2 ⟨rfl, nj, np⟩]

/-- Decoding undoes encoding, for each format of R51 to R53. -/
theorem decode_encode_append {i : Instr} (h : i.WellFormed) (rest : List Byte) :
    decode (encode i ++ rest) = .ok (i, rest) := by
  cases i with
  | padding => exact decode_padding rest
  | selfHalt => exact decode_nearJump Config.offSelfHalt rest
  | nearJump off => exact decode_nearJump_of_ne (Instr.wellFormed_nearJump.1 h) rest
  | unsupported b =>
    obtain ⟨np, nj⟩ := Instr.wellFormed_unsupported.1 h
    exact decode_unsupported np nj rest

/-- Everything the decoder can answer, with the bytes it answers it for. -/
inductive DecodeCase : List Byte → Except DecodeReject (Instr × List Byte) → Prop
  | noOpcode : DecodeCase [] (.error .noOpcode)
  | noOffset : DecodeCase [Config.opNearJump] (.error .noOffset)
  | encoded (i : Instr) (rest : List Byte) (wf : i.WellFormed) : DecodeCase (encode i ++ rest) (.ok (i, rest))

theorem decode_cases : ∀ bs : List Byte, DecodeCase bs (decode bs)
  | [] => .noOpcode
  | op :: rest => by
    by_cases nj : op = Config.opNearJump
    · subst nj
      cases rest with
      | nil => exact .noOffset
      | cons off rest =>
        by_cases sh : off = Config.offSelfHalt
        · subst sh
          exact .encoded .selfHalt rest rfl
        · rw [decode_nearJump_of_ne sh]
          exact .encoded (.nearJump off) rest (Instr.wellFormed_nearJump.2 sh)
    · by_cases np : op = Config.opPadding
      · subst np
        exact .encoded .padding rest rfl
      · rw [decode_unsupported np nj]
        exact .encoded (.unsupported op) rest (Instr.wellFormed_unsupported.2 ⟨np, nj⟩)

/-! ## Decode and encode agree -/

/-- Settles O5, format by format: the operand check keeps `NEARJUMP` from the offset of `SELFHALT` and `UNSUPPORTED`
from the two supported opcodes. -/
theorem decodeOfEncodeIsTheInstruction : Obligations.DecodeOfEncodeIsTheInstruction :=
  fun _ rest wf => decode_encode_append wf rest

/-- Settles O6: the bytes an instruction is decoded from are its encoding and the rest. -/
theorem encodeOfDecodeIsTheBytes : Obligations.EncodeOfDecodeIsTheBytes := by
  intro bs i rest h
  have c := decode_cases bs
  rw [h] at c
  cases c with
  | encoded _ _ wf => exact ⟨wf, rfl⟩

/-- Settles O7: decoding the common bytes gives both instructions. -/
theorem encodingsArePrefixFree : Obligations.EncodingsArePrefixFree := by
  intro i j r r' hi hj h
  have both : decode (encode i ++ r) = decode (encode j ++ r') := congrArg decode h
  rw [decode_encode_append hi, decode_encode_append hj] at both
  cases both
  exact ⟨rfl, rfl⟩

/-- The first byte of an encoding tells its length (R56). -/
theorem encode_length {i : Instr} (h : i.WellFormed) :
    ∃ op rest, encode i = op :: rest ∧ rest.length + 1 = lengthOf op := by
  cases i with
  | padding => exact Laws.EncodeLength.padding h
  | selfHalt => exact Laws.EncodeLength.selfHalt h
  | nearJump off => exact Laws.EncodeLength.nearJump off h
  | unsupported b => exact Laws.EncodeLength.unsupported b h

/-- Settles O8: what decodes begins with an encoding, whose length `encode_length` gives; `decode_cases` names the
rejected lists. -/
theorem firstByteTellsTheLength : Obligations.FirstByteTellsTheLength := by
  refine ⟨fun b bs i rest h => ?_, fun bs e h => ?_⟩
  · obtain ⟨wf, bytes⟩ := encodeOfDecodeIsTheBytes (b :: bs) i rest h
    obtain ⟨op, tail, enc, len⟩ := encode_length wf
    rw [enc, List.cons_append, List.cons.injEq] at bytes
    obtain ⟨rfl, rfl⟩ := bytes
    rw [List.length_append, Nat.add_right_comm, len]
    rfl
  · have c := decode_cases bs
    rw [h] at c
    cases c with
    | noOpcode => exact .inl rfl
    | noOffset => exact .inr rfl

/-! ## The opcode map and words written out by hand -/

/-- Settles O3: the three classes are told apart by the two supported opcodes, and `decode` follows the class. -/
theorem opcodeMapIsTotalAndExclusive : Obligations.OpcodeMapIsTotalAndExclusive :=
  ⟨fun _ => ⟨classOf_eq_nearJump, classOf_eq_padding, fun _ => classOf_eq_unsupported⟩,
    decode_padding, fun _ rest np nj => decode_unsupported np nj rest, decode_nearJump⟩

/-- Settles O4: six byte strings, evaluated. -/
theorem handWrittenWordsDecode : Obligations.HandWrittenWordsDecode := ⟨rfl, rfl, rfl, rfl, rfl, rfl⟩

/-! ## Words of the opcode table (R59) -/

theorem decodeTableWord_eq (nbits w : Nat) :
    decodeTableWord nbits w = (decode (tableBytes nbits w)).toOption.map Prod.fst := by
  unfold decodeTableWord
  cases decode (tableBytes nbits w) <;> rfl

/-- The low byte of a word is fetched last. -/
theorem wordBytes_succ_add_toNat (n w : Nat) (b : Byte) :
    wordBytes (n + 1) (w * 256 + b.toNat) = wordBytes n w ++ [b] := by
  have high : (w * 256 + b.toNat) / 256 = w := by omega
  have low : BitVec.ofNat 8 (w * 256 + b.toNat) = b := by
    apply BitVec.eq_of_toNat_eq
    rw [BitVec.toNat_ofNat]
    omega
  rw [wordBytes, high, low]

theorem wordBytes_one_toNat (b : Byte) : wordBytes 1 b.toNat = [b] := by
  simp [wordBytes]

theorem tableBytes_sixteen (b0 b1 : Byte) : tableBytes 16 (b0.toNat * 256 + b1.toNat) = [b0, b1] := by
  simp [tableBytes, wordBytes_succ_add_toNat, wordBytes_one_toNat]

theorem tableBytes_eight (b0 : Byte) : tableBytes 8 b0.toNat = [b0, 0x00#8] := by
  simp [tableBytes, wordBytes_one_toNat]

/-- Settles O9: the bytes of a table word are its base-256 digits, the high one first, and a zero byte fills up the
word of one byte (log entry 7). -/
theorem tableWordsAreInFetchOrder : Obligations.TableWordsAreInFetchOrder := by
  constructor
  · intro b0 b1
    rw [decodeTableWord_eq, tableBytes_sixteen]
  · intro b0
    rw [decodeTableWord_eq, tableBytes_eight]

end Sys2Proof

/-! ## Assembler lines (spec/30_encoding.md R58) -/

namespace Sys2Proof.Machine

/-- `NEARJUMP n` assembles exactly where `n` is the number of an offset byte other than that of `SELFHALT`. -/
theorem asmBytes_nearJump_eq_some {n : Nat} {bs : List Byte} :
    asmBytes (.nearJump n) = some bs ↔
      ∃ off : Byte, off.toNat = n ∧ off ≠ Config.offSelfHalt ∧ bs = encode (.nearJump off) := by
  simp only [asmBytes]
  constructor
  · intro h
    split at h
    · next ok =>
      have value : (BitVec.ofNat 8 n).toNat = n := Nat.mod_eq_of_lt ok.1
      refine ⟨BitVec.ofNat 8 n, value, fun sh => ok.2 ?_, by cases h; rfl⟩
      rw [← value, sh]
      rfl
    · cases h
  · rintro ⟨off, rfl, sh, rfl⟩
    have ok : off.toNat < 256 ∧ off.toNat ≠ 254 := ⟨off.isLt, fun e => sh (BitVec.eq_of_toNat_eq e)⟩
    rw [if_pos ok, BitVec.ofNat_toNat, BitVec.setWidth_eq]

/-- Settles O10: an assembled near-jump is the encoding of a well-formed instruction, which decodes back. -/
theorem assemblerNotationDecodesBack : Obligations.AssemblerNotationDecodesBack := by
  refine ⟨fun n => ?_, fun n bs h => ?_, rfl, rfl⟩
  · rw [asmBytes, Option.isSome_ite]
    omega
  · obtain ⟨off, value, sh, rfl⟩ := asmBytes_nearJump_eq_some.1 h
    exact ⟨off, value, rfl, decode_encode_append (Instr.wellFormed_nearJump.2 sh) []⟩

end Sys2Proof.Machine

/-! # The engine loop (spec/40_engine_loop.md)

How an enabled STEP ends is read off its cases once (`EnabledCase.stepEnd`): the engine runs on, with `IP` raised and
nothing else written, or it halts where it stands. -/

namespace Sys2Proof.Machine

/-! ## The fetch is the decoder on the bytes memory has from `IP` (R70) -/

theorem bytesAhead_of_le {s : State} (h : Config.memSize ≤ s.ip.toNat) : bytesAhead s = [] := by
  simp [bytesAhead, Nat.sub_eq_zero_of_le h]

theorem bytesAhead_of_top {s : State} (h : s.ip.toNat = 0xFFFF) : bytesAhead s = [s.opcode] := by
  simp [bytesAhead, State.opcode, h, Config.memSize]

theorem bytesAhead_of_lt {s : State} (h : s.ip.toNat < 0xFFFF) : bytesAhead s = [s.opcode, s.offset] := by
  have two : min 2 (Config.memSize - s.ip.toNat) = 2 := by
    simp only [Config.memSize]
    omega
  rw [bytesAhead, two]
  rfl

theorem bytesAhead_of_inMemory {s : State} (h : s.InMemory) : ∃ rest, bytesAhead s = s.opcode :: rest := by
  by_cases top : s.ip.toNat = 0xFFFF
  · exact ⟨[], bytesAhead_of_top top⟩
  · simp only [State.InMemory, Config.memSize] at h
    exact ⟨[s.offset], bytesAhead_of_lt (by omega)⟩

/-- The engine's fetch and the decoder agree; what the decoder rejects for missing bytes is the address fault. -/
theorem fetch_eq_decode_bytesAhead (s : State) :
    fetch s = ((decode (bytesAhead s)).map Prod.fst).mapError fun _ => faultAddress s.ip := by
  have c := fetch_cases s
  generalize fetch s = f at c
  cases c with
  | opcodeFault above =>
    rw [bytesAhead_of_le above, faultAddress_of_le above]
    rfl
  | offsetFault top op =>
    have op : s.opcode = Config.opNearJump := by rw [State.opcode, top, op]
    rw [bytesAhead_of_top top, op, faultAddress_of_lt (by rw [top]; decide)]
    rfl
  | padding inside op =>
    obtain ⟨rest, bytes⟩ := bytesAhead_of_inMemory inside
    rw [bytes, State.opcode, op, decode_padding]
    rfl
  | unsupported inside nj np =>
    obtain ⟨rest, bytes⟩ := bytesAhead_of_inMemory inside
    rw [bytes, decode_unsupported np nj]
    rfl
  | selfHalt below op off =>
    rw [bytesAhead_of_lt below, State.opcode, op, State.offset, off]
    rfl
  | nearJump below op off =>
    rw [bytesAhead_of_lt below, State.opcode, op, decode_nearJump_of_ne off]
    rfl

/-- Settles O24: the fetch answers what the decoder reads from the bytes ahead. -/
theorem stepRunsTheDecodedInstruction : Obligations.StepRunsTheDecodedInstruction := by
  intro s en
  refine ⟨rfl, fun i rest h => step_of_fetch_ok en ?_, fun e h => step_of_fetch_error en ?_⟩ <;>
    rw [fetch_eq_decode_bytesAhead, h] <;> rfl

/-! ## How an enabled STEP ends -/

/-- STEP writes neither memory nor `PHASE` nor the loader's reports, and uses up the host's turn. -/
theorem EnabledCase.frame {s t : State} (c : EnabledCase s t) :
    t.mem = s.mem ∧ t.phase = s.phase ∧ t.loadErrors = s.loadErrors ∧ t.hostInput = s.hostInput.tail := by
  cases c <;> simp [*]

/-- The two ends of a STEP: the engine runs on with a larger `IP`, or it halts with at most one event. -/
inductive StepEnd (s t : State) : Prop
  | runsOn (inside : s.InMemory) (run : t.run = s.run) (cause : t.cause = s.cause) (out : t.out = s.out)
      (rises : s.ip.toNat < t.ip.toNat) (atMost : t.ip.toNat ≤ s.ip.toNat + 257)
  | halts (run : t.run = false) (ip : t.ip = s.ip)
      (out : t.out = s.out ∨
        (t.cause = .unsupportedOpcode ∧ t.out = s.out ++ [.diagUnsupported s.opcode (diagIp s.ip)]) ∨
        (t.cause = .addressFault ∧ t.out = s.out ++ [.addrFault (faultAddress s.ip)]))

theorem EnabledCase.stepEnd {s t : State} (c : EnabledCase s t) : StepEnd s t := by
  cases c with
  | padding inside _ eq =>
    have ip : t.ip.toNat = s.ip.toNat + 1 := by rw [eq, State.setIp_ip, nextByte_toNat inside]
    exact .runsOn inside (by simp [eq]) (by simp [eq]) (by simp [eq]) (by omega) (by omega)
  | nearJump below _ _ eq =>
    have inside : s.InMemory := below.trans (by decide)
    have ip : t.ip.toNat = s.ip.toNat + 2 + s.offset.toNat := by rw [eq, State.setIp_ip, jumpTarget_toNat _ inside]
    have offset := s.offset.isLt
    exact .runsOn inside (by simp [eq]) (by simp [eq]) (by simp [eq]) (by omega) (by omega)
  | selfHalt _ _ _ eq => exact .halts (by simp [eq]) (by simp [eq]) (.inl (by simp [eq]))
  | unsupported _ _ _ eq => exact .halts (by simp [eq]) (by simp [eq]) (.inr (.inl (by simp [eq])))
  | opcodeFault above eq =>
    exact .halts (by simp [eq]) (by simp [eq]) (.inr (.inr (by simp [eq, faultAddress_of_le above])))
  | offsetFault top _ eq =>
    have inside : s.InMemory := by rw [State.InMemory, top]; decide
    exact .halts (by simp [eq]) (by simp [eq]) (.inr (.inr (by simp [eq, faultAddress_of_lt inside])))

/-- Settles O35: the frame of STEP, and the events of its two ends. -/
theorem stepHasNoOtherEffect : Obligations.StepHasNoOtherEffect := by
  intro s t en h
  have c := enabled_cases en h
  obtain ⟨mem, phase, loadErrors, hostInput⟩ := c.frame
  refine ⟨mem, phase.trans en.1, loadErrors, hostInput, ?_⟩
  cases c.stepEnd with
  | runsOn _ _ cause out => exact ⟨.inl out, fun _ => ⟨out, cause⟩⟩
  | halts run _ out => exact ⟨by simpa [run] using out, by simp [run]⟩

/-- Where STEP is not enabled a transition keeps `IP` and `RUN`, but for the reset. -/
theorem step_keeps_ip_run_of_not_enabled {s t : State} (h : step s = .next t) (noStep : ¬ s.StepEnabled) :
    (s.resetComing = true ∧ t = hostReset s.afterTurn) ∨ (t.ip = s.ip ∧ t.run = s.run) := by
  cases step_cases h with
  | instr en => exact absurd en noStep
  | addressFault en => exact absurd en noStep
  | reset coming eq => exact .inl ⟨coming, eq⟩
  | _ => right; simp [*]

/-- Settles O37: only STEP and reset write `IP`, and a STEP raises it or halts where it stands. -/
theorem ipRisesWhileRunning : Obligations.IpRisesWhileRunning := by
  refine ⟨fun s t h noReset => ?_, fun s t en h => ?_⟩
  · by_cases en : s.StepEnabled
    · cases (enabled_cases en h).stepEnd with
      | runsOn _ _ _ _ rises => exact rises.le
      | halts _ ip => rw [ip]
    · obtain ⟨coming, -⟩ | ⟨ip, -⟩ := step_keeps_ip_run_of_not_enabled h en
      · simp [noReset] at coming
      · rw [ip]
  · cases (enabled_cases en h).stepEnd with
    | runsOn _ run _ _ rises atMost => exact ⟨fun _ => ⟨rises, atMost⟩, by simp [run, en.2.1]⟩
    | halts run ip => exact ⟨by simp [run], fun _ => ip⟩

/-! ## What clears `RUN` (R74) -/

/-- The bytes at `IP` that halt the engine. -/
abbrev State.HaltAhead (s : State) : Prop :=
  (s.ip.toNat < 0xFFFF ∧ s.opcode = Config.opNearJump ∧ s.offset = Config.offSelfHalt) ∨
  (s.ip.toNat < 0x10000 ∧ s.opcode ≠ Config.opPadding ∧ s.opcode ≠ Config.opNearJump) ∨
  (0x10000 ≤ s.ip.toNat ∨ (s.ip.toNat = 0xFFFF ∧ s.opcode = Config.opNearJump))

theorem not_haltAhead_of_padding {s : State} (inside : s.InMemory) (op : s.opcode = Config.opPadding) :
    ¬ s.HaltAhead := by
  have nj : Config.opPadding ≠ Config.opNearJump := by decide
  simpa [State.HaltAhead, Config.memSize, op, nj] using inside

theorem not_haltAhead_of_nearJump {s : State} (below : s.ip.toNat < 0xFFFF) (op : s.opcode = Config.opNearJump)
    (off : s.offset ≠ Config.offSelfHalt) : ¬ s.HaltAhead := by
  simp only [State.HaltAhead, op, off, ne_eq, not_true_eq_false, and_false, false_or, and_true]
  omega

theorem EnabledCase.run_eq_false_iff {s t : State} (c : EnabledCase s t) (running : s.run = true) :
    t.run = false ↔ s.HaltAhead := by
  cases c with
  | padding inside op eq => simp [eq, running, not_haltAhead_of_padding inside op]
  | nearJump below op off eq => simp [eq, running, not_haltAhead_of_nearJump below op off]
  | selfHalt below op off eq => exact iff_of_true (by simp [eq]) (.inl ⟨below, op, off⟩)
  | unsupported inside np nj eq => exact iff_of_true (by simp [eq]) (.inr (.inl ⟨inside, np, nj⟩))
  | opcodeFault above eq => exact iff_of_true (by simp [eq]) (.inr (.inr (.inl above)))
  | offsetFault top op eq => exact iff_of_true (by simp [eq]) (.inr (.inr (.inr ⟨top, op⟩)))

/-- Settles O36: a STEP halts exactly on the bytes of `State.HaltAhead`, and no other transition clears `RUN`. -/
theorem threeThingsClearRun : Obligations.ThreeThingsClearRun := by
  intro s t h running
  by_cases en : s.StepEnabled
  · exact ((enabled_cases en h).run_eq_false_iff running).trans (and_iff_right en).symm
  · have stillRunning : t.run = true := by
      obtain ⟨-, rfl⟩ | ⟨-, run⟩ := step_keeps_ip_run_of_not_enabled h en
      · rfl
      · rw [run, running]
    simp [stillRunning, en]

/-! ## What a STEP reads (R72, spec/20_memory.md R33) -/

/-- A fetch depends on `IP`, the opcode byte and, after 0xEB, the offset byte. -/
theorem fetch_eq_of_bytes_eq {s t : State} (ip : s.ip = t.ip) (opcode : s.InMemory → s.opcode = t.opcode)
    (offset : s.opcode = Config.opNearJump → s.ip.toNat < 0xFFFF → s.offset = t.offset) : fetch s = fetch t := by
  have inMemory_t : s.InMemory → t.InMemory := by rw [State.InMemory, ip]; exact id
  have c := fetch_cases s
  generalize fetch s = f at c
  cases c with
  | opcodeFault above => rw [fetch_of_opcodeFault (s := t) (ip ▸ above), ip]
  | offsetFault top op =>
    have inside : s.InMemory := by rw [State.InMemory, top]; decide
    have op : s.opcode = Config.opNearJump := by rw [State.opcode, top, op]
    rw [fetch_of_offsetFault (s := t) (ip ▸ top) ((opcode inside).symm.trans op)]
  | padding inside op => rw [fetch_of_padding (s := t) (inMemory_t inside) ((opcode inside).symm.trans op)]
  | unsupported inside nj np =>
    have same := opcode inside
    rw [fetch_of_unsupported (s := t) (inMemory_t inside) (same ▸ np) (same ▸ nj), ← same]
  | selfHalt below op off =>
    have same := opcode (below.trans (by decide))
    rw [fetch_of_nearJump (s := t) (ip ▸ below) (same ▸ op), ← offset op below, State.offset, off]
    rfl
  | nearJump below op off =>
    have same := opcode (below.trans (by decide))
    rw [fetch_of_nearJump (s := t) (ip ▸ below) (same ▸ op), ← offset op below, nearJumpForm, if_neg off]

/-- `s'` and `t'` agree in the registers, and the way to them from `s` and from `t` appended the same events. -/
def SameEffect (s t s' t' : State) : Prop :=
  ∃ events, s'.ip = t'.ip ∧ s'.run = t'.run ∧ s'.cause = t'.cause ∧
    s'.out = s.out ++ events ∧ t'.out = t.out ++ events

section
variable {s t : State} (ip : s.ip = t.ip) (run : s.run = t.run) (cause : s.cause = t.cause)
include ip

theorem takeAddressFault_sameEffect (a : Addr) : SameEffect s t (s.takeAddressFault a) (t.takeAddressFault a) :=
  ⟨[.addrFault a], ip, rfl, rfl, rfl, rfl⟩

include run cause

/-- The meaning of an instruction depends on the registers alone. -/
theorem exec_sameEffect (i : Instr) :
    ∃ s' t', exec i s = .next s' ∧ exec i t = .next t' ∧ SameEffect s t s' t' := by
  cases i with
  | padding => exact ⟨_, _, rfl, rfl, [], by simp [ip], run, cause, by simp, by simp⟩
  | nearJump off => exact ⟨_, _, rfl, rfl, [], by simp [ip], run, cause, by simp, by simp⟩
  | selfHalt => exact ⟨_, _, rfl, rfl, [], ip, rfl, rfl, by simp, by simp⟩
  | unsupported b => exact ⟨_, _, rfl, rfl, [.diagUnsupported b (diagIp s.ip)], ip, rfl, rfl, rfl, by simp [ip]⟩

end

/-- Settles O38: the same bytes are fetched alike, and what is fetched acts on the registers alone. -/
theorem stepReadsOnlyTheInstructionsBytes : Obligations.StepReadsOnlyTheInstructionsBytes := by
  intro s t en en' ip cause opcode offset
  have same : fetch t = fetch s := (fetch_eq_of_bytes_eq ip opcode offset).symm
  have run : s.run = t.run := en.2.1.trans en'.2.1.symm
  have effect : ∃ s' t', step s = .next s' ∧ step t = .next t' ∧ SameEffect s.afterTurn t.afterTurn s' t' := by
    cases f : fetch s with
    | ok i =>
      rw [step_of_fetch_ok en f, step_of_fetch_ok en' (same.trans f)]
      exact exec_sameEffect (s := s.afterTurn) (t := t.afterTurn) ip run cause i
    | error a =>
      rw [step_of_fetch_error en f, step_of_fetch_error en' (same.trans f)]
      exact ⟨_, _, rfl, rfl, takeAddressFault_sameEffect ip a⟩
  obtain ⟨s', t', hs, ht, events, registers⟩ := effect
  exact ⟨s', t', events, hs, ht, registers⟩

/-! ## The loop ends (R73, R75) -/

/-- An enabled STEP always answers a next state. -/
theorem step_next_of_enabled {s : State} (en : s.StepEnabled) : ∃ t, step s = .next t := by
  cases f : fetch s with
  | ok i =>
    rw [step_of_fetch_ok en f]
    cases i <;> exact ⟨_, rfl⟩
  | error a => exact ⟨_, step_of_fetch_error en f⟩

/-- With at most `k` bytes of memory left above `IP` the engine halts within `k + 1` steps: a STEP that runs on is taken
below 0x10000 and raises `IP`. -/
theorem engineLoop_ends (k : Nat) {s : State} (en : s.StepEnabled) (quiet : s.hostInput = [])
    (left : Config.memSize ≤ s.ip.toNat + k) :
    ∃ n t, n ≤ k + 1 ∧ runSteps n s = .next t ∧ t.run = false ∧ t.phase = .exec ∧ t.mem = s.mem := by
  obtain ⟨t, h⟩ := step_next_of_enabled en
  have c := enabled_cases en h
  obtain ⟨mem, phase, -, host⟩ := c.frame
  cases c.stepEnd with
  | halts run => exact ⟨1, t, by omega, by rw [runSteps_succ h, runSteps], run, phase.trans en.1, mem⟩
  | runsOn inside run _ _ rises =>
    cases k with
    | zero => exact absurd inside (Nat.not_lt.2 left)
    | succ k =>
      have quiet' : t.hostInput = [] := by rw [host, quiet, List.tail_nil]
      have en' : t.StepEnabled := ⟨phase.trans en.1, run.trans en.2.1, by rw [State.hostQuiet, quiet']⟩
      obtain ⟨n, u, hn, steps, halted, inExec, mem'⟩ := engineLoop_ends k en' quiet' (by omega)
      exact ⟨n + 1, u, by omega, by rw [runSteps_succ h, steps], halted, inExec, mem'.trans mem⟩

/-- Settles O47: from 0x7C00 there are 33792 bytes left of memory. -/
theorem engineLoopEnds : Obligations.EngineLoopEnds :=
  fun _ en quiet entry => engineLoop_ends 33792 en quiet (Nat.add_le_add_right entry 33792)

end Sys2Proof.Machine

/-! # The near-jump form: `NEARJUMP` and `SELFHALT` (spec/41_near_jump.md)

An instruction's part is the update it makes (`State.setIp`, `State.halt`), with its frame; the step's part is which
instruction the bytes at `IP` are fetched as. -/

namespace Sys2Proof.Machine

/-! ## The frames of the two updates -/

/-- Writing `IP` changes nothing else (R82). -/
theorem setIp_frame (s : State) (a : Addr) :
    (s.setIp a).run = s.run ∧ (s.setIp a).cause = s.cause ∧ (s.setIp a).out = s.out ∧ SameOutside s (s.setIp a) ∧
      (s.setIp a).hostInput = s.hostInput :=
  ⟨rfl, rfl, rfl, sameOutside_of_eq rfl rfl rfl, rfl⟩

/-- Halting writes `RUN` and `CAUSE` and nothing else (R85). -/
theorem halt_frame (s : State) (c : Cause) :
    (s.halt c).ip = s.ip ∧ (s.halt c).out = s.out ∧ SameOutside s (s.halt c) ∧ (s.halt c).hostInput = s.hostInput :=
  ⟨rfl, rfl, sameOutside_of_eq rfl rfl rfl, rfl⟩

/-- Settles O30: both forms only write `IP`. -/
theorem jumpFormsChangeOnlyIp : Obligations.JumpFormsChangeOnlyIp := by
  rintro s t i (rfl | ⟨off, rfl⟩) h
  · cases h
    exact setIp_frame s (nextByte s.ip)
  · cases h
    exact setIp_frame s (jumpTarget s.ip off)

/-- Settles O31: both forms halt, `UNSUPPORTED` after its one event. -/
theorem haltingFormsChangeOnlyRunCauseOut : Obligations.HaltingFormsChangeOnlyRunCauseOut := by
  rintro s t i (rfl | ⟨b, rfl⟩) h
  · cases h
    obtain ⟨ip, out, outside, host⟩ := halt_frame s .selfLoop
    exact ⟨ip, outside, host, fun _ => out, out ▸ List.prefix_rfl⟩
  · cases h
    obtain ⟨ip, out, outside, host⟩ := halt_frame (s.emit (.diagUnsupported b (diagIp s.ip))) .unsupportedOpcode
    exact ⟨ip, outside, host, nofun, out ▸ List.prefix_append s.out _⟩

/-! ## The form at `IP` as a step -/

/-- An offset byte other than 0xFE makes the form a `NEARJUMP`. -/
theorem step_of_nearJump {s : State} (en : s.StepEnabled) (below : s.ip.toNat < 0xFFFF)
    (op : s.opcode = Config.opNearJump) (off : s.offset ≠ Config.offSelfHalt) :
    step s = .next (s.afterTurn.setIp (jumpTarget s.ip s.offset)) := by
  have f : fetch s = .ok (.nearJump s.offset) := by rw [fetch_of_nearJump below op, nearJumpForm, if_neg off]
  rw [step_of_fetch_ok en f, exec_nearJump, State.afterTurn_ip]

/-- The offset byte 0xFE makes the form `SELFHALT`. -/
theorem step_of_selfHalt {s : State} (en : s.StepEnabled) (below : s.ip.toNat < 0xFFFF)
    (op : s.opcode = Config.opNearJump) (off : s.offset = Config.offSelfHalt) :
    step s = .next (s.afterTurn.halt .selfLoop) := by
  have f : fetch s = .ok .selfHalt := by rw [fetch_of_nearJump below op, nearJumpForm, if_pos off]
  rw [step_of_fetch_ok en f, exec_selfHalt]

/-- A step whose fetch faults takes the address fault (spec/60_exceptions.md R123). -/
theorem step_faultTaken {s : State} {a : Addr} (en : s.StepEnabled) (f : fetch s = .error a) :
    ∃ t, step s = .next t ∧ FaultTaken a s t :=
  ⟨_, step_of_fetch_error en f, rfl, rfl, rfl, rfl, sameOutside_of_eq rfl rfl rfl⟩

/-- FINISH of a self-loop or unsupported-opcode halt emits the waiting event and enters `DONE`
(spec/44_boot_sequence.md R106). -/
theorem step_waiting_of_halted {t : State} (quiet : t.hostQuiet = true) (phase : t.phase = .exec)
    (halted : t.run = false) (cause : t.cause = .selfLoop ∨ t.cause = .unsupportedOpcode) :
    ∃ u, step t = .next u ∧ u.phase = .done ∧ u.out = t.out ++ [.waiting] :=
  ⟨_, (step_of_halted quiet phase halted).trans (finish_normal cause), rfl, rfl⟩

/-- Settles O27: the target's sum carries nothing away from an address of memory, and at the last byte the offset fetch
faults. -/
theorem nearJumpAddsTwoAndTheOffset : Obligations.NearJumpAddsTwoAndTheOffset := by
  refine ⟨fun s off _ inside => ?_, fun s en below op off => ?_, fun s en top op => ?_⟩
  · exact ⟨_, exec_nearJump off s, jumpTarget_toNat off inside, setIp_frame s _⟩
  · have inside : s.InMemory := below.trans (by decide)
    obtain ⟨run, cause, out, outside, host⟩ := setIp_frame s.afterTurn (jumpTarget s.ip s.offset)
    exact ⟨_, step_of_nearJump en below op off, jumpTarget_toNat s.offset inside, run.trans en.2.1, cause, out,
      outside, host⟩
  · exact step_faultTaken en (fetch_of_offsetFault top op)

/-- Settles O28: the engine halts in phase `EXEC`, where FINISH is what follows, and at the last byte the offset fetch
faults. -/
theorem selfHaltStopsTheEngine : Obligations.SelfHaltStopsTheEngine := by
  refine ⟨fun s => ?_, fun s en below op off => ?_, fun s en top op => ?_⟩
  · exact ⟨_, exec_selfHalt s, rfl, rfl, halt_frame s .selfLoop⟩
  · obtain ⟨ip, out, outside, host⟩ := halt_frame s.afterTurn .selfLoop
    exact ⟨_, step_of_selfHalt en below op off, rfl, rfl, ip, out, outside, host,
      fun quiet => step_waiting_of_halted quiet en.1 rfl (.inl rfl)⟩
  · exact step_faultTaken en (fetch_of_offsetFault top op)

end Sys2Proof.Machine

/-! # The padding form: `PADDING` (spec/42_padding.md) -/

namespace Sys2Proof.Machine

/-- A padding byte at `IP` is stepped over. -/
theorem step_of_padding {s : State} (en : s.StepEnabled) (inside : s.InMemory) (op : s.opcode = Config.opPadding) :
    step s = .next (s.afterTurn.setIp (nextByte s.ip)) := by
  rw [step_of_fetch_ok en (fetch_of_padding inside op), exec_padding, State.afterTurn_ip]

/-- At 0x10000 the opcode fetch faults (spec/20_memory.md R32). -/
theorem step_faultTaken_of_top {s : State} (en : s.StepEnabled) (top : s.ip = 0x10000#17) :
    ∃ t, step s = .next t ∧ FaultTaken 0x10000#17 s t :=
  step_faultTaken en (by rw [fetch_of_opcodeFault (by rw [top]; decide), top])

/-- Settles O26: the sum carries nothing away from an address of memory, and `RUN` stays 1, so that from the last byte
of memory STEP is enabled again, at 0x10000. -/
theorem paddingAdvancesByOne : Obligations.PaddingAdvancesByOne := by
  refine ⟨fun s inside => ?_, fun s en inside op => ?_⟩
  · exact ⟨_, exec_padding s, nextByte_toNat inside, setIp_frame s _⟩
  · have ip := nextByte_toNat inside
    obtain ⟨run, cause, out, outside, host⟩ := setIp_frame s.afterTurn (nextByte s.ip)
    refine ⟨_, step_of_padding en inside op, ip, run.trans en.2.1, cause, out, outside, host, fun last quiet => ?_⟩
    have top : nextByte s.ip = 0x10000#17 := BitVec.eq_of_toNat_eq (by rw [ip, last]; rfl)
    exact step_faultTaken_of_top ⟨en.1, run.trans en.2.1, quiet⟩ top

/-! ## Consecutive paddings -/

/-- A host that gives nothing has no turn to use up. -/
theorem afterTurn_of_nil {s : State} (h : s.hostInput = []) : s.afterTurn = s := by
  rw [State.afterTurn, h, List.tail_nil, ← h, State.setHostInput]

/-- One padding after the other: `k` bytes on from the next byte is `k + 1` bytes on. -/
theorem nextByte_add_ofNat (ip : Addr) (k : Nat) : nextByte ip + BitVec.ofNat 17 k = ip + BitVec.ofNat 17 (k + 1) := by
  rw [nextByte, BitVec.add_assoc, Nat.add_comm k, BitVec.ofNat_add]

/-- `k` padding bytes take `k` steps (R90), by induction: after one step the other bytes start at the new `IP`. -/
theorem runSteps_paddings (k : Nat) {s : State} (en : s.StepEnabled) (quiet : s.hostInput = [])
    (room : s.ip.toNat + k ≤ Config.memSize) (bytes : ∀ j < k, s.mem.read (s.ip.toNat + j) = Config.opPadding) :
    runSteps k s = .next (s.setIp (s.ip + BitVec.ofNat 17 k)) := by
  induction k generalizing s with
  | zero => rw [runSteps, BitVec.add_zero, State.setIp]
  | succ k ih =>
    have inside : s.InMemory := by rw [State.InMemory]; omega
    have first : step s = .next (s.setIp (nextByte s.ip)) := by
      rw [step_of_padding en inside (bytes 0 k.succ_pos), afterTurn_of_nil quiet]
    have ip : (s.setIp (nextByte s.ip)).ip.toNat = s.ip.toNat + 1 := nextByte_toNat inside
    have rest : ∀ j < k, s.mem.read ((s.setIp (nextByte s.ip)).ip.toNat + j) = Config.opPadding := by
      intro j lt
      rw [ip, Nat.add_assoc, Nat.add_comm 1]
      exact bytes (j + 1) (Nat.succ_lt_succ lt)
    rw [runSteps_succ first, ih (s := s.setIp (nextByte s.ip)) en quiet (by omega) rest, State.setIp_ip,
      nextByte_add_ofNat]
    rfl

/-- Settles O40: `setIp` writes the one field, and `Config.memSize` is 0x10000. -/
theorem consecutivePaddingsAddUp : Obligations.ConsecutivePaddingsAddUp :=
  fun k _ en quiet room bytes => runSteps_paddings k en quiet room bytes

end Sys2Proof.Machine

/-! # The unsupported opcodes: `UNSUPPORTED` (spec/43_unsupported.md) -/

namespace Sys2Proof.Machine

/-- The `ip` field of the diagnostic is `IP` without its bit 16 (R95). -/
theorem diagIp_toNat (ip : Addr) : (diagIp ip).toNat = ip.toNat % 0x10000 := by
  rw [diagIp, BitVec.extractLsb'_toNat, Nat.shiftRight_zero]

/-- The `ip` field of the diagnostic is the whole of an address of memory. -/
theorem diagIp_toNat_of_lt {ip : Addr} (inside : ip.toNat < Config.memSize) : (diagIp ip).toNat = ip.toNat := by
  rw [diagIp_toNat]
  exact Nat.mod_eq_of_lt inside

/-- Reporting an event and halting leaves everything but `OUT`, `RUN` and `CAUSE` (R95). -/
theorem emit_halt_frame (s : State) (e : Event) (c : Cause) :
    ((s.emit e).halt c).ip = s.ip ∧ SameOutside s ((s.emit e).halt c) ∧ ((s.emit e).halt c).hostInput = s.hostInput :=
  ⟨rfl, sameOutside_of_eq rfl rfl rfl, rfl⟩

/-- An unsupported byte at `IP` is reported, and the engine halts on it. -/
theorem step_of_unsupported {s : State} (en : s.StepEnabled) (inside : s.InMemory) (np : s.opcode ≠ Config.opPadding)
    (nj : s.opcode ≠ Config.opNearJump) :
    step s = .next ((s.afterTurn.emit (.diagUnsupported s.opcode (diagIp s.ip))).halt .unsupportedOpcode) := by
  rw [step_of_fetch_ok en (fetch_of_unsupported inside np nj), exec_unsupported, State.afterTurn_ip]

/-- Settles O29: a fetched byte stands at an address of memory, so its report shows the whole of `IP`, and the engine
halts in phase `EXEC`, where FINISH is what follows. -/
theorem unsupportedReportsAndStops : Obligations.UnsupportedReportsAndStops := by
  refine ⟨fun s b _ _ => ?_, fun s en inside np nj => ?_⟩
  · exact ⟨_, exec_unsupported b s, ⟨_, diagIp_toNat s.ip, rfl⟩, rfl, rfl, emit_halt_frame s _ _⟩
  · obtain ⟨ip, outside, host⟩ :=
      emit_halt_frame s.afterTurn (.diagUnsupported s.opcode (diagIp s.ip)) .unsupportedOpcode
    exact ⟨_, step_of_unsupported en inside np nj, ⟨_, diagIp_toNat_of_lt inside, rfl⟩, rfl, rfl, ip, outside, host,
      fun quiet => step_waiting_of_halted quiet en.1 rfl (.inr rfl)⟩

end Sys2Proof.Machine

/-! # The boot sequence (spec/44_boot_sequence.md)

The machine's invariant, the validator, `BOOT`, the phase graph, `FINISH` and the four outcomes. The clauses of the
invariant that tie phase, cause and output together are `State.Traced`, spelled out for each phase once
(`traced_of_reset` to `traced_of_faulted`); each transition keeps them by the clause of the phase it enters. -/

namespace Sys2Proof.Machine

/-! ## The trace that belongs to a phase and a cause (R111) -/

/-- The clauses of the invariant that say what phase, cause and output stand for. -/
abbrev State.Traced (s : State) : Prop := CauseJustified s ∧ PhaseConsistent s ∧ s.out = expectedOut s

theorem State.Inv.traced {s : State} (inv : s.Inv) : s.Traced :=
  ⟨inv.causeJustified, inv.phaseConsistent, inv.outExpected⟩

section
variable {s : State}

theorem causeJustified_of_none (cause : s.cause = .none) : CauseJustified s := by
  rw [CauseJustified, cause]
  trivial

theorem haltEvents_of_none (cause : s.cause = .none) : haltEvents s = [] := by rw [haltEvents, cause]

theorem haltEvents_of_selfLoop (cause : s.cause = .selfLoop) : haltEvents s = [] := by rw [haltEvents, cause]

theorem haltEvents_of_unsupportedOpcode (cause : s.cause = .unsupportedOpcode) :
    haltEvents s = [.diagUnsupported s.opcode (diagIp s.ip)] := by rw [haltEvents, cause]

theorem haltEvents_of_addressFault (cause : s.cause = .addressFault) :
    haltEvents s = [.addrFault (faultAddress s.ip)] := by rw [haltEvents, cause]

theorem traced_of_reset (phase : s.phase = .reset) :
    s.Traced ↔ s.cause = .none ∧ s.ip = Config.entryAddr ∧ s.out = [] := by
  simp only [State.Traced, PhaseConsistent, expectedOut, phase, and_assoc]
  exact and_iff_right_of_imp fun ⟨cause, _⟩ => causeJustified_of_none cause

theorem traced_of_noBoot (phase : s.phase = .noBoot) :
    s.Traced ↔ s.cause = .none ∧ s.ip = Config.entryAddr ∧ sigValid s.mem = false ∧ s.out = [.banner, .bootError] := by
  simp only [State.Traced, PhaseConsistent, expectedOut, phase, and_assoc]
  exact and_iff_right_of_imp fun ⟨cause, _⟩ => causeJustified_of_none cause

theorem traced_of_exec (phase : s.phase = .exec) :
    s.Traced ↔ CauseJustified s ∧ sigValid s.mem = true ∧ s.out = [.banner, .booting] ++ haltEvents s := by
  simp only [State.Traced, PhaseConsistent, expectedOut, phase]

theorem traced_of_done (phase : s.phase = .done) :
    s.Traced ↔ CauseJustified s ∧ (s.cause = .selfLoop ∨ s.cause = .unsupportedOpcode) ∧ sigValid s.mem = true ∧
      s.out = [.banner, .booting] ++ haltEvents s ++ [.waiting] := by
  simp only [State.Traced, PhaseConsistent, expectedOut, phase, and_assoc]

theorem traced_of_faulted (phase : s.phase = .faulted) :
    s.Traced ↔ CauseJustified s ∧ s.cause = .addressFault ∧ sigValid s.mem = true ∧
      s.out = [.banner, .booting] ++ haltEvents s := by
  simp only [State.Traced, PhaseConsistent, expectedOut, phase, and_assoc]

/-- Before the engine's halt the boot events are all there is. -/
theorem traced_of_running (phase : s.phase = .exec) (cause : s.cause = .none) (sig : sigValid s.mem = true)
    (out : s.out = [.banner, .booting]) : s.Traced :=
  (traced_of_exec phase).2 ⟨causeJustified_of_none cause, sig, by rw [haltEvents_of_none cause, out, List.append_nil]⟩

/-! ## What a fetch answers, by its memory -/

/-- An unsupported instruction is the byte at `IP`. -/
theorem eq_opcode_of_fetch_unsupported {b : Byte} (f : fetch s = .ok (.unsupported b)) : b = s.opcode := by
  have c := fetch_cases s
  rw [f] at c
  cases c
  rfl

/-- A fetch faults at the address of `faultAddress`. -/
theorem eq_faultAddress_of_fetch_error {a : Addr} (f : fetch s = .error a) : a = faultAddress s.ip := by
  have c := fetch_cases s
  rw [f] at c
  cases c with
  | opcodeFault above => rw [faultAddress_of_le above]
  | offsetFault top => rw [faultAddress_of_lt (by rw [top]; decide)]

/-! ## Each transition keeps the trace -/

/-- `BOOT` enters the phase the signature selects (R103, R104). -/
theorem boot_traced (phase : s.phase = .reset) (traced : s.Traced) : (boot s).Traced := by
  obtain ⟨cause, ip, out⟩ := (traced_of_reset phase).1 traced
  rw [boot_eq, out]
  split
  · exact traced_of_running rfl cause ‹_› rfl
  · exact (traced_of_noBoot rfl).2 ⟨cause, ip, Bool.eq_false_iff.2 ‹_›, rfl⟩

/-- An instruction that is fetched runs on without an event, or halts with the cause and the event it stands for. -/
theorem exec_traced {t : State} {i : Instr} (phase : s.phase = .exec) (cause : s.cause = .none) (traced : s.Traced)
    (f : fetch s = .ok i) (ex : exec i s = .next t) : t.Traced := by
  obtain ⟨-, sig, out⟩ := (traced_of_exec phase).1 traced
  rw [haltEvents_of_none cause, List.append_nil] at out
  have runsOn (a : Addr) : (s.setIp a).Traced := traced_of_running phase cause sig out
  cases i with
  | padding =>
    cases ex
    exact runsOn _
  | nearJump off =>
    cases ex
    exact runsOn _
  | selfHalt =>
    cases ex
    exact (traced_of_exec (s := s.halt .selfLoop) phase).2 ⟨f, sig, out⟩
  | unsupported b =>
    cases ex
    obtain rfl := eq_opcode_of_fetch_unsupported f
    refine (traced_of_exec (s := (s.emit _).halt .unsupportedOpcode) phase).2 ⟨f, sig, ?_⟩
    rw [State.halt_out, State.emit_out, out]
    rfl

/-- A fetch that faults is the address fault the trace names. -/
theorem takeAddressFault_traced {a : Addr} (phase : s.phase = .exec) (cause : s.cause = .none) (traced : s.Traced)
    (f : fetch s = .error a) : (s.takeAddressFault a).Traced := by
  obtain ⟨-, sig, out⟩ := (traced_of_exec phase).1 traced
  rw [haltEvents_of_none cause, List.append_nil] at out
  obtain rfl := eq_faultAddress_of_fetch_error f
  refine (traced_of_exec (s := s.takeAddressFault _) phase).2 ⟨f, sig, ?_⟩
  rw [State.takeAddressFault_out, out]
  rfl

/-- `FINISH`, normal end (R106). -/
theorem emit_waiting_enter_done_traced (phase : s.phase = .exec)
    (cause : s.cause = .selfLoop ∨ s.cause = .unsupportedOpcode) (traced : s.Traced) :
    ((s.emit .waiting).enter .done).Traced := by
  obtain ⟨justified, sig, out⟩ := (traced_of_exec phase).1 traced
  refine (traced_of_done rfl).2 ⟨justified, cause, sig, ?_⟩
  rw [State.enter_out, State.emit_out, out]
  rfl

/-- `FINISH` after an address fault (R107). -/
theorem enter_faulted_traced (phase : s.phase = .exec) (cause : s.cause = .addressFault) (traced : s.Traced) :
    (s.enter .faulted).Traced := by
  obtain ⟨justified, sig, out⟩ := (traced_of_exec phase).1 traced
  exact (traced_of_faulted rfl).2 ⟨justified, cause, sig, out⟩

/-- The loader's writes are not seen in phase `RESET`: the trace there does not speak of memory. -/
theorem setMem_traced (m : Memory) (phase : s.phase = .reset) (traced : s.Traced) : (s.setMem m).Traced :=
  (traced_of_reset (s := s.setMem m) phase).2 ((traced_of_reset phase).1 traced)

theorem hostReset_traced (s : State) : (hostReset s).Traced := (traced_of_reset rfl).2 ⟨rfl, rfl, rfl⟩

end

theorem step_keeps_traced {s t : State} (h : step s = .next t) (inv : s.Inv) : t.Traced := by
  have traced : s.afterTurn.Traced := inv.traced
  have noCause (en : s.StepEnabled) : s.cause = .none := inv.runIffNoCause.1 en.2.1
  cases step_cases h with
  | stay _ _ eq => exact eq ▸ traced
  | instr en i f ex => exact exec_traced (s := s.afterTurn) en.1 (noCause en) traced f ex
  | addressFault en a f eq => exact eq ▸ takeAddressFault_traced en.1 (noCause en) traced f
  | finishNormal _ phase _ cause eq => exact eq ▸ emit_waiting_enter_done_traced phase cause traced
  | finishFault _ phase _ cause eq => exact eq ▸ enter_faulted_traced phase cause traced
  | reset _ eq => exact eq ▸ hostReset_traced s.afterTurn
  | write _ _ _ phase m _ eq => exact eq ▸ setMem_traced m phase traced
  | writeError _ _ _ _ _ _ eq => exact eq ▸ traced
  | load _ _ _ phase m _ eq => exact eq ▸ setMem_traced m phase traced
  | loadError _ _ _ _ _ _ eq => exact eq ▸ traced
  | boot _ phase eq => exact eq ▸ boot_traced phase traced
  | startIgnored _ _ eq => exact eq ▸ traced

/-- Settles O44: each register's invariant is kept by itself (O13, O43, O42), and the trace by `step_keeps_traced`. -/
theorem stepKeepsTheMachineInvariant : Obligations.StepKeepsTheMachineInvariant := by
  intro s t h inv
  obtain ⟨justified, consistent, out⟩ := step_keeps_traced h inv
  exact ⟨stepKeepsMemoryCanonical s t h inv.memWf, stepKeepsIpInRange s t h inv.ipInRange,
    stepKeepsRunIffNoCause s t h inv.runIffNoCause, justified, consistent, out⟩

/-! ## The validator and the loaded image (R100, R108) -/

/-- Settles O19: `sigValid_eq`, with the conjunction of Booleans read as one of propositions. -/
theorem signatureIsTheTwoBytes : Obligations.SignatureIsTheTwoBytes := by
  intro m
  rw [sigValid_eq, Bool.and_eq_true, beq_iff_eq, beq_iff_eq]
  rfl

/-- What the loader's `load_image` accepts, and the memory it makes (spec/70_reset_and_hazards.md R143 to R145). -/
theorem loadBytes_eq_ok {bs : List Byte} {base : Nat} {m m' : Memory} : loadBytes bs base m = .ok m' ↔
    bs.length ≤ Config.maxImageSize ∧ base + bs.length ≤ Config.memSize ∧ m' = m.copy base bs := by
  by_cases size : Config.maxImageSize < bs.length
  · simp [loadBytes, size]
  · by_cases range : Config.memSize < base + bs.length
    · simp [loadBytes, size, range]
    · simp [loadBytes, size, range, Nat.le_of_not_lt size, Nat.le_of_not_lt range, eq_comm]

/-- A byte of an image loaded over reset memory; what the image does not reach is empty. -/
theorem read_of_loadBytes_reset {bs : List Byte} {base : Nat} {m : Memory}
    (load : loadBytes bs base State.reset.mem = .ok m) (i : Nat) :
    m.read (base + i) = (bs[i]?).getD Config.emptyByte := by
  obtain ⟨-, range, rfl⟩ := loadBytes_eq_ok.1 load
  rw [Memory.read_copy _ _ range Memory.wf_reset, if_pos (Nat.le_add_right base i), Nat.add_sub_cancel_left]
  rfl

/-- Only an image that has the byte leaves a byte that is not the empty one. -/
theorem getD_emptyByte_eq_iff {b : Byte} (hb : b ≠ Config.emptyByte) (x : Option Byte) :
    x.getD Config.emptyByte = b ↔ x = some b := by
  cases x with
  | none => simpa using hb.symm
  | some c => simp

/-- Settles O18: the two bytes of the signature are not empty, so the image itself holds them, and byte 511 is the last
one the loader accepts. -/
theorem bootableImagesEndInTheSignature : Obligations.BootableImagesEndInTheSignature := by
  refine ⟨by decide, fun bs m load => ?_⟩
  have size : bs.length ≤ 512 := (loadBytes_eq_ok.1 load).1
  have byte0 : m.read 0x7DFE = 0x55#8 ↔ bs[510]? = some 0x55#8 := by
    rw [read_of_loadBytes_reset load 510, getD_emptyByte_eq_iff (by decide)]
  have byte1 : m.read 0x7DFF = 0xAA#8 ↔ bs[511]? = some 0xAA#8 := by
    rw [read_of_loadBytes_reset load 511, getD_emptyByte_eq_iff (by decide)]
  have full : bs[511]? = some 0xAA#8 → bs.length = 512 := by
    intro last
    obtain ⟨inside, -⟩ := List.getElem?_eq_some_iff.1 last
    omega
  rw [signatureIsTheTwoBytes, byte0, byte1]
  exact ⟨fun ⟨h0, h1⟩ => ⟨full h1, h0, h1⟩, And.right⟩

/-! ## `start` (R101) -/

@[simp] theorem boot_hostInput (s : State) : (boot s).hostInput = s.hostInput := by rw [boot_eq]; split <;> rfl
@[simp] theorem boot_loadErrors (s : State) : (boot s).loadErrors = s.loadErrors := by rw [boot_eq]; split <;> rfl

section
variable {s : State}

/-- `BOOT` with the signature (R103). -/
theorem boot_of_sig (sig : sigValid s.mem = true) :
    boot s = { s with out := s.out ++ [.banner, .booting], phase := .exec } := by
  rw [boot_eq, if_pos sig]

/-- `BOOT` without the signature (R104). -/
theorem boot_of_noSig (noSig : sigValid s.mem = false) :
    boot s = { s with out := s.out ++ [.banner, .bootError], phase := .noBoot } := by
  rw [boot_eq, if_neg (Bool.eq_false_iff.1 noSig)]

theorem hostStart_of_reset (phase : s.phase = .reset) : hostStart s = boot s := by
  rw [hostStart, phase]

theorem hostStart_of_started (started : s.phase ≠ .reset) : hostStart s = s := by
  unfold hostStart
  cases phase : s.phase with
  | reset => exact absurd phase started
  | _ => rfl

theorem step_of_start {rest : List HostAction} (hs : s.hostInput = .start :: rest) :
    step s = .next (hostStart (s.setHostInput rest)) := step_of_host hs

end

/-- Settles O20: `start` is `BOOT` in phase `RESET`, which the signature decides, and elsewhere changes nothing. -/
theorem startBootsOnlyFromReset : Obligations.StartBootsOnlyFromReset := by
  intro s rest hs
  refine ⟨_, step_of_start hs, ?_⟩
  by_cases phase : s.phase = .reset
  · rw [hostStart_of_reset (s := s.setHostInput rest) phase]
    refine ⟨boot_mem _, boot_ip _, boot_run _, boot_cause _, boot_loadErrors _, boot_hostInput _, fun _ sig => ?_,
      fun _ noSig => ?_, absurd phase⟩
    · rw [boot_of_sig (s := s.setHostInput rest) sig]
      exact ⟨rfl, rfl⟩
    · rw [boot_of_noSig (s := s.setHostInput rest) noSig]
      exact ⟨rfl, rfl⟩
  · rw [hostStart_of_started (s := s.setHostInput rest) phase]
    exact ⟨rfl, rfl, rfl, rfl, rfl, rfl, fun reset => absurd reset phase, fun reset => absurd reset phase,
      fun _ => ⟨rfl, rfl⟩⟩

/-! ## The phase graph (R110) -/

/-- The edges of the phase graph other than `reset`, each with the phases it joins, the events it emits, and what it
needs of the state `s` it leaves. -/
inductive PhaseEdge (s : State) : Phase → Phase → List Event → Prop
  | stay (p : Phase) : PhaseEdge s p p []
  | noBoot (start : s.hostInput.head? = some .start) (noSig : sigValid s.mem = false) :
      PhaseEdge s .reset .noBoot [.banner, .bootError]
  | boot (start : s.hostInput.head? = some .start) (sig : sigValid s.mem = true) :
      PhaseEdge s .reset .exec [.banner, .booting]
  | unsupported (running : s.run = true) : PhaseEdge s .exec .exec [.diagUnsupported s.opcode (diagIp s.ip)]
  | addressFault (running : s.run = true) : PhaseEdge s .exec .exec [.addrFault (faultAddress s.ip)]
  | finishNormal (quiet : s.hostQuiet = true) (halted : s.run = false)
      (cause : s.cause = .selfLoop ∨ s.cause = .unsupportedOpcode) : PhaseEdge s .exec .done [.waiting]
  | finishFault (quiet : s.hostQuiet = true) (halted : s.run = false) (cause : s.cause = .addressFault) :
      PhaseEdge s .exec .faulted []

/-- From `s` to `t` an edge of the phase graph is taken, and its events are emitted. -/
def TakesEdge (s t : State) : Prop :=
  ∃ p q events, s.phase = p ∧ PhaseEdge s p q events ∧ t.phase = q ∧ t.out = s.out ++ events

section
variable {s t : State}

theorem TakesEdge.of_stay (phase : t.phase = s.phase) (out : t.out = s.out) : TakesEdge s t :=
  ⟨_, _, _, rfl, .stay _, phase, by rw [out, List.append_nil]⟩

/-- STEP stays in `EXEC`, with the event of its end. -/
theorem takesEdge_of_enabled (en : s.StepEnabled) (h : step s = .next t) : TakesEdge s t := by
  obtain ⟨-, inExec, -, -, event, -⟩ := stepHasNoOtherEffect s t en h
  obtain out | ⟨-, -, out⟩ | ⟨-, -, out⟩ := event
  · exact .of_stay (inExec.trans en.1.symm) out
  · exact ⟨_, _, _, en.1, .unsupported en.2.1, inExec, out⟩
  · exact ⟨_, _, _, en.1, .addressFault en.2.1, inExec, out⟩

/-- `BOOT` leaves `RESET` by the edge the signature selects. -/
theorem takesEdge_of_boot (start : s.hostInput.head? = some .start) (phase : s.phase = .reset) :
    TakesEdge s (boot s.afterTurn) := by
  cases sig : sigValid s.mem with
  | true =>
    rw [boot_of_sig (s := s.afterTurn) sig]
    exact ⟨_, _, _, phase, .boot start sig, rfl, rfl⟩
  | false =>
    rw [boot_of_noSig (s := s.afterTurn) sig]
    exact ⟨_, _, _, phase, .noBoot start sig, rfl, rfl⟩

/-- Every transition but `reset` takes an edge of the phase graph. -/
theorem step_takesEdge (h : step s = .next t) (noReset : s.resetComing = false) : TakesEdge s t := by
  cases step_cases h with
  | instr en => exact takesEdge_of_enabled en h
  | addressFault en => exact takesEdge_of_enabled en h
  | finishNormal quiet phase halted cause eq =>
    exact ⟨_, _, _, phase, .finishNormal quiet halted cause, by simp [eq], by simp [eq]⟩
  | finishFault quiet phase halted cause eq =>
    exact ⟨_, _, _, phase, .finishFault quiet halted cause, by simp [eq], by simp [eq]⟩
  | reset coming => simp [noReset] at coming
  | boot start phase eq => exact eq ▸ takesEdge_of_boot start phase
  | _ => exact .of_stay (by simp [*]) (by simp [*])

/-- The host's `reset` is the whole transition. -/
theorem step_of_resetComing (coming : s.resetComing = true) : step s = .next (hostReset s.afterTurn) := by
  cases hs : s.hostInput with
  | nil => simp [State.resetComing, hs] at coming
  | cons action rest =>
    cases action with
    | reset =>
      rw [step_of_host hs, State.afterTurn, hs]
      rfl
    | _ => simp [State.resetComing, hs] at coming

/-- In a terminal phase a transition other than `reset` only uses up the host's turn. -/
theorem step_eq_afterTurn_of_terminal (h : step s = .next t) (terminal : s.Ended) (noReset : s.resetComing = false) :
    t = s.afterTurn := by
  have notExec : s.phase ≠ .exec := by rintro phase; simp [State.Ended, phase, isTerminal] at terminal
  have notReset : s.phase ≠ .reset := by rintro phase; simp [State.Ended, phase, isTerminal] at terminal
  cases step_cases h with
  | stay _ _ eq => exact eq
  | startIgnored _ _ eq => exact eq
  | reset coming _ => simp [noReset] at coming
  | instr en => exact absurd en.1 notExec
  | addressFault en => exact absurd en.1 notExec
  | _ => contradiction

end

/-- Settles O23: `reset` leads to `RESET` with no output, a terminal phase stays, and from `RESET` and `EXEC` the edges
are those of `PhaseEdge`. -/
theorem phaseGraphIsComplete : Obligations.PhaseGraphIsComplete := by
  intro s t h
  refine ⟨fun coming => ?_, fun noReset phase => ?_, fun noReset phase => ?_, fun noReset terminal => ?_⟩
  · rw [step_of_resetComing coming] at h
    cases h
    exact ⟨rfl, rfl⟩
  · obtain ⟨p, q, events, source, edge, target, out⟩ := step_takesEdge h noReset
    obtain rfl := source.symm.trans phase
    cases edge with
    | stay => exact .inl ⟨target, by rw [out, List.append_nil]⟩
    | noBoot start noSig => exact .inr (.inl ⟨start, noSig, target, out⟩)
    | boot start sig => exact .inr (.inr ⟨start, sig, target, out⟩)
  · obtain ⟨p, q, events, source, edge, target, out⟩ := step_takesEdge h noReset
    obtain rfl := source.symm.trans phase
    cases edge with
    | stay => exact .inl ⟨target, by rw [out, List.append_nil]⟩
    | unsupported running => exact .inr (.inl ⟨target, running, out⟩)
    | addressFault running => exact .inr (.inr (.inl ⟨target, running, out⟩))
    | finishNormal _ halted cause => exact .inr (.inr (.inr (.inl ⟨target, halted, cause, out⟩)))
    | finishFault _ halted cause =>
      exact .inr (.inr (.inr (.inr ⟨target, halted, cause, by rw [out, List.append_nil]⟩)))
  · rw [step_eq_afterTurn_of_terminal h terminal noReset]
    exact ⟨rfl, rfl, rfl, rfl, rfl, rfl⟩

/-! ## `FINISH`, and the output of the final states (R106, R107) -/

section
variable {s t : State}

/-- What leads to another phase than `RESET` is no reset. -/
theorem resetComing_eq_false_of_phase_ne (h : step s = .next t) (phase : t.phase ≠ .reset) : s.resetComing = false := by
  by_contra coming
  rw [step_of_resetComing (Bool.eq_true_of_not_eq_false coming)] at h
  cases h
  exact phase rfl

theorem out_of_done_selfLoop (inv : s.Inv) (phase : s.phase = .done) (cause : s.cause = .selfLoop) :
    s.out = [.banner, .booting, .waiting] := by
  obtain ⟨-, -, -, out⟩ := (traced_of_done phase).1 inv.traced
  rw [out, haltEvents_of_selfLoop cause]
  rfl

theorem out_of_done_unsupportedOpcode (inv : s.Inv) (phase : s.phase = .done) (cause : s.cause = .unsupportedOpcode) :
    s.out = [.banner, .booting, .diagUnsupported s.opcode (diagIp s.ip), .waiting] := by
  obtain ⟨-, -, -, out⟩ := (traced_of_done phase).1 inv.traced
  rw [out, haltEvents_of_unsupportedOpcode cause]
  rfl

theorem out_of_faulted (inv : s.Inv) (phase : s.phase = .faulted) :
    s.out = [.banner, .booting, .addrFault (faultAddress s.ip)] := by
  obtain ⟨-, cause, -, out⟩ := (traced_of_faulted phase).1 inv.traced
  rw [out, haltEvents_of_addressFault cause]
  rfl

theorem phase_out_of_terminal (h : step s = .next t) (terminal : s.Ended) (noReset : s.resetComing = false) :
    t.phase = s.phase ∧ t.out = s.out := by
  rw [step_eq_afterTurn_of_terminal h terminal noReset]
  exact ⟨rfl, rfl⟩

end

/-- Settles O21: `FINISH` of a normal end is the only edge into `DONE`. -/
theorem finishEmitsWaiting : Obligations.FinishEmitsWaiting := by
  refine ⟨fun s quiet phase halted cause => ?_, fun s t h other done => ?_, fun s t h done noReset => ?_,
    fun s inv done => ⟨out_of_done_selfLoop inv done, out_of_done_unsupportedOpcode inv done⟩⟩
  · rw [step_of_halted quiet phase halted, finish_normal (s := s.afterTurn) cause]
    rfl
  · have noReset := resetComing_eq_false_of_phase_ne h (by simp [done])
    obtain ⟨p, q, events, source, edge, target, -⟩ := step_takesEdge h noReset
    obtain rfl := target.symm.trans done
    cases edge with
    | stay => exact absurd source other
    | finishNormal quiet halted cause => exact ⟨quiet, source, halted, cause⟩
  · exact done ▸ phase_out_of_terminal h (by rw [State.Ended, done]; rfl) noReset

/-- Settles O22: `FINISH` after an address fault is the only edge into `FAULTED`. -/
theorem finishAfterFaultEmitsNothing : Obligations.FinishAfterFaultEmitsNothing := by
  refine ⟨fun s quiet phase halted cause => ?_, fun s t h other faulted => ?_, fun s t h faulted noReset => ?_,
    fun s inv faulted => out_of_faulted inv faulted⟩
  · rw [step_of_halted quiet phase halted, finish_fault (s := s.afterTurn) cause]
    rfl
  · have noReset := resetComing_eq_false_of_phase_ne h (by simp [faulted])
    obtain ⟨p, q, events, source, edge, target, -⟩ := step_takesEdge h noReset
    obtain rfl := target.symm.trans faulted
    cases edge with
    | stay => exact absurd source other
    | finishFault quiet halted cause => exact ⟨quiet, source, halted, cause⟩
  · exact faulted ▸ phase_out_of_terminal h (by rw [State.Ended, faulted]; rfl) noReset

/-! ## Under the invariant the machine never sticks -/

section
variable {s : State}

/-- Outside `EXEC` the block has no transition, and an idle turn is used up. -/
theorem step_of_quiet_of_not_exec (quiet : s.hostQuiet = true) (phase : s.phase ≠ .exec) :
    step s = .next s.afterTurn := by
  rw [step_of_quiet quiet, blockTransition]
  cases hp : s.afterTurn.phase with
  | exec => exact absurd hp phase
  | _ => rfl

/-- Where there is a cause one of the two forms of `FINISH` is enabled; it ends the run and keeps memory. -/
theorem finish_ends (cause : s.cause ≠ .none) : ∃ t, finish s = .next t ∧ t.Ended ∧ t.mem = s.mem := by
  cases hc : s.cause with
  | none => exact absurd hc cause
  | selfLoop => exact ⟨_, finish_normal (.inl hc), rfl, rfl⟩
  | unsupportedOpcode => exact ⟨_, finish_normal (.inr hc), rfl, rfl⟩
  | addressFault => exact ⟨_, finish_fault hc, rfl, rfl⟩

/-- A halted engine has a cause. -/
theorem State.Inv.cause_ne_none (inv : s.Inv) (halted : s.run = false) : s.cause ≠ .none := by
  intro cause
  have running := inv.runIffNoCause.2 cause
  simp [halted] at running

theorem step_next_of_quiet (inv : s.Inv) (quiet : s.hostQuiet = true) : ∃ t, step s = .next t := by
  by_cases phase : s.phase = .exec
  · cases run : s.run with
    | true => exact step_next_of_enabled ⟨phase, run, quiet⟩
    | false =>
      obtain ⟨t, finished, -⟩ := finish_ends (s := s.afterTurn) (inv.cause_ne_none run)
      exact ⟨t, (step_of_halted quiet phase run).trans finished⟩
  · exact ⟨_, step_of_quiet_of_not_exec quiet phase⟩

/-- The loader's operation answers a next state in phase `RESET` and is refused in any other. -/
theorem hostLoad_next_or_refused (r : Except LoadError Memory) (s : State) :
    (∃ t, hostLoad r s = .next t) ∨ (hostLoad r s = .refused .memoryWriteAfterStart ∧ s.phase ≠ .reset) := by
  by_cases phase : s.phase = .reset
  · left
    cases r with
    | ok m => exact ⟨_, hostLoad_of_reset phase⟩
    | error e => exact ⟨_, hostLoad_of_reset phase⟩
  · exact .inr ⟨hostLoad_of_started phase, phase⟩

end

/-- Settles O46: the block always has a transition or an idle turn, and of the host's actions only the loader's can be
refused. -/
theorem invariantStatesNeverStick : Obligations.InvariantStatesNeverStick := by
  intro s inv
  cases hs : s.hostInput with
  | nil => exact .inl (step_next_of_quiet inv (by rw [State.hostQuiet, hs]))
  | cons action rest =>
    cases action with
    | idle => exact .inl (step_next_of_quiet inv (by rw [State.hostQuiet, hs]))
    | reset => exact .inl ⟨_, step_of_host hs⟩
    | start => exact .inl ⟨_, step_of_start hs⟩
    | write a b =>
      rw [step_of_host hs]
      exact (hostLoad_next_or_refused _ (s.setHostInput rest)).imp_right
        fun ⟨refused, started⟩ => ⟨refused, started, .inl ⟨a, b, rfl⟩⟩
    | loadImage bs base =>
      rw [step_of_host hs]
      exact (hostLoad_next_or_refused _ (s.setHostInput rest)).imp_right
        fun ⟨refused, started⟩ => ⟨refused, started, .inr ⟨bs, base, rfl⟩⟩

/-! ## The four outcomes (R111) -/

/-- One of the four outcomes of R111: the phase, the cause and the complete output. -/
abbrev State.InOutcome (t : State) : Prop :=
  (t.phase = .noBoot ∧ t.cause = .none ∧ t.out = [.banner, .bootError]) ∨
  (t.phase = .done ∧ t.cause = .selfLoop ∧ t.out = [.banner, .booting, .waiting]) ∨
  (t.phase = .done ∧ t.cause = .unsupportedOpcode ∧
    t.out = [.banner, .booting, .diagUnsupported t.opcode (diagIp t.ip), .waiting]) ∨
  (t.phase = .faulted ∧ t.cause = .addressFault ∧ t.out = [.banner, .booting, .addrFault (faultAddress t.ip)])

section
variable {s : State}

/-- Where a run is over, the invariant leaves the four outcomes. -/
theorem State.Inv.inOutcome (inv : s.Inv) (ended : s.Ended) : s.InOutcome := by
  cases phase : s.phase with
  | reset => simp [State.Ended, phase, isTerminal] at ended
  | exec => simp [State.Ended, phase, isTerminal] at ended
  | noBoot =>
    obtain ⟨cause, -, -, out⟩ := (traced_of_noBoot phase).1 inv.traced
    exact .inl ⟨phase, cause, out⟩
  | done =>
    obtain ⟨-, cause | cause, -⟩ := (traced_of_done phase).1 inv.traced
    · exact .inr (.inl ⟨phase, cause, out_of_done_selfLoop inv phase cause⟩)
    · exact .inr (.inr (.inl ⟨phase, cause, out_of_done_unsupportedOpcode inv phase cause⟩))
  | faulted =>
    obtain ⟨-, cause, -⟩ := (traced_of_faulted phase).1 inv.traced
    exact .inr (.inr (.inr ⟨phase, cause, out_of_faulted inv phase⟩))

/-- A transition uses up the host's next action. -/
theorem step_hostInput {t : State} (h : step s = .next t) : t.hostInput = s.hostInput.tail := by
  cases step_cases h with
  | instr en _ _ _ =>
    obtain ⟨-, -, -, host⟩ := (enabled_cases en h).frame
    exact host
  | _ => simp [*]

/-- A host that has nothing left to give stays idle. -/
theorem runSteps_hostInput_nil {n : Nat} {t : State} (h : runSteps n s = .next t) (idle : s.hostInput = []) :
    t.hostInput = [] :=
  runSteps_keeps (P := fun u => u.hostInput = []) (fun u v h nil => by rw [step_hostInput h, nil, List.tail_nil]) h idle

/-- From an enabled engine with an idle host a run of the loop and of `FINISH` is over (spec/40_engine_loop.md R75). -/
theorem run_ends_of_enabled (inv : s.Inv) (en : s.StepEnabled) (idle : s.hostInput = []) :
    ∃ n t, n ≤ 33794 ∧ runSteps n s = .next t ∧ t.Ended ∧ t.mem = s.mem := by
  obtain ⟨n, u, bound, loop, halted, inExec, mem⟩ := engineLoopEnds s en idle inv.ipInRange.1
  have invU : u.Inv := runSteps_keeps stepKeepsTheMachineInvariant loop inv
  have quiet : u.hostQuiet = true := by rw [State.hostQuiet, runSteps_hostInput_nil loop idle]
  obtain ⟨t, finished, ended, mem'⟩ := finish_ends (s := u.afterTurn) (invU.cause_ne_none halted)
  have last : runSteps 1 u = .next t := by
    rw [runSteps_succ ((step_of_halted quiet inExec halted).trans finished), runSteps]
  exact ⟨n + 1, t, by omega, (runSteps_add loop).trans last, ended, mem'.trans mem⟩

/-- From `start` every run is over within 33795 transitions. -/
theorem run_ends_of_start (inv : s.Inv) (phase : s.phase = .reset) (start : s.hostInput = [.start]) :
    ∃ n t, n ≤ 33795 ∧ runSteps n s = .next t ∧ t.Ended ∧ t.mem = s.mem := by
  have booted : step s = .next (boot s.afterTurn) := by
    rw [step_of_start start, hostStart_of_reset (s := s.setHostInput []) phase, State.afterTurn, start, List.tail_cons]
  cases sig : sigValid s.mem with
  | false =>
    rw [boot_of_noSig (s := s.afterTurn) sig] at booted
    exact ⟨1, _, by decide, runSteps_succ booted, rfl, rfl⟩
  | true =>
    have inv' := stepKeepsTheMachineInvariant _ _ booted inv
    have idle : (boot s.afterTurn).hostInput = [] := by rw [step_hostInput booted, start, List.tail_cons]
    obtain ⟨cause, -⟩ := (traced_of_reset phase).1 inv.traced
    have en : (boot s.afterTurn).StepEnabled :=
      ⟨by rw [boot_of_sig (s := s.afterTurn) sig], (boot_run _).trans (inv.runIffNoCause.2 cause),
        by rw [State.hostQuiet, idle]⟩
    obtain ⟨n, t, bound, run, ended, mem⟩ := run_ends_of_enabled inv' en idle
    exact ⟨n + 1, t, by omega, (runSteps_succ booted).trans run, ended, mem.trans (boot_mem _)⟩

end

/-- Settles O48: the run is over within the bound, in a state the invariant still holds of. -/
theorem everyRunReachesOneOfFourOutcomes : Obligations.EveryRunReachesOneOfFourOutcomes := by
  intro s inv phase start
  obtain ⟨n, t, bound, run, ended, mem⟩ := run_ends_of_start inv phase start
  have invT : t.Inv := runSteps_keeps stepKeepsTheMachineInvariant run inv
  exact ⟨n, t, bound, run, mem, invT.inOutcome ended⟩

end Sys2Proof.Machine

/-! # Exceptions (spec/60_exceptions.md)

The address fault is the step whose fetch answers an error; what each statement adds is where that is so. -/

namespace Sys2Proof.Machine

/-! ## Taking the fault (R123) -/

/-- The fetches that fault, with the address each one reports. -/
theorem fetch_eq_error_of_fault {s : State}
    (h : 0x10000 ≤ s.ip.toNat ∨ (s.ip.toNat = 0xFFFF ∧ s.opcode = Config.opNearJump)) :
    fetch s = .error (if 0x10000 ≤ s.ip.toNat then s.ip else 0x10000#17) := by
  obtain above | ⟨top, op⟩ := h
  · rw [if_pos above, fetch_of_opcodeFault above]
  · rw [if_neg (by omega), fetch_of_offsetFault top op]

/-- FINISH of an address-fault halt enters `FAULTED` and emits nothing (spec/44_boot_sequence.md R107). -/
theorem step_faulted_of_halted {t : State} (quiet : t.hostQuiet = true) (phase : t.phase = .exec)
    (halted : t.run = false) (cause : t.cause = .addressFault) :
    ∃ u, step t = .next u ∧ u.phase = .faulted ∧ u.out = t.out :=
  ⟨_, (step_of_halted quiet phase halted).trans (finish_fault cause), rfl, rfl⟩

/-- Settles O32: the step whose fetch faults takes the fault in phase `EXEC`, where FINISH is what follows. -/
theorem addressFaultEntry : Obligations.AddressFaultEntry := by
  intro s en fault
  obtain ⟨t, h, taken⟩ := step_faultTaken en (fetch_eq_error_of_fault fault)
  have ⟨_, halted, cause, _, _, phase, _⟩ := taken
  exact ⟨t, h, taken, step_hostInput h, fun safe => safe.1 cause,
    fun quiet => step_faulted_of_halted quiet (phase.trans en.1) halted cause⟩

/-! ## The last byte of memory (R126) -/

/-- Settles O33: the opcode decides before the offset is read, so only 0xEB faults at the last byte, and after a padding
it is the next opcode fetch that does. -/
theorem priorityAtTheTopOfMemory : Obligations.PriorityAtTheTopOfMemory := by
  intro s en top idle
  have inside : s.InMemory := by rw [State.InMemory, top]; decide
  refine ⟨fun op => ?_, fun op => ?_, fun nj np => ?_⟩
  · exact step_faultTaken en (fetch_of_offsetFault top op)
  · obtain ⟨t, h, ip, run, -, out, -, host, next⟩ := paddingAdvancesByOne.2 s en inside op
    have quiet : t.hostQuiet = true := by rw [State.hostQuiet, host, idle, List.tail_nil]
    obtain ⟨u, h', taken⟩ := next top quiet
    exact ⟨t, u, h, BitVec.eq_of_toNat_eq (by rw [ip, top]; rfl), out, run, h', taken⟩
  · have diag : diagIp s.ip = 0xFFFF#16 := BitVec.eq_of_toNat_eq (by rw [diagIp_toNat_of_lt inside, top]; rfl)
    exact ⟨_, step_of_unsupported en inside np nj, by rw [diag]; rfl, rfl⟩

/-! ## The addresses a fault can carry (R124) -/

/-- A STEP that emits an address fault is one of the two whose fetch faults. -/
theorem EnabledCase.of_addrFault {s t : State} {a : Addr} (c : EnabledCase s t)
    (out : t.out = s.out ++ [.addrFault a]) :
    (Config.memSize ≤ s.ip.toNat ∧ a = s.ip) ∨ (s.ip.toNat = 0xFFFF ∧ a = 0x10000#17) := by
  cases c with
  | opcodeFault above eq => exact .inl ⟨above, by simpa [eq, eq_comm] using out⟩
  | offsetFault top _ eq => exact .inr ⟨top, by simpa [eq, eq_comm] using out⟩
  | _ => simp [*] at out

/-- Settles O34: the fault of an opcode fetch carries `IP`, which its range bounds, and that of an offset fetch 0x10000. -/
theorem addressFaultsOnlyAboveMemory : Obligations.AddressFaultsOnlyAboveMemory := by
  intro s t en ⟨_, atMost⟩ h
  simp only [Config.maxIp] at atMost
  refine ⟨fun a out => ?_, fun below a out => ?_⟩
  · obtain ⟨above, rfl⟩ | ⟨_, rfl⟩ := (enabled_cases en h).of_addrFault out
    · exact ⟨above, atMost, fun top => absurd (top ▸ above) (by decide)⟩
    · exact ⟨by decide, by decide, fun _ => rfl⟩
  · obtain ⟨above, -⟩ | ⟨top, -⟩ := (enabled_cases en h).of_addrFault out
    · exact absurd (above.trans below) (by decide)
    · omega

end Sys2Proof.Machine

/-! # Reset, the loader and the placing of a program (spec/70_reset_and_hazards.md) -/

namespace Sys2Proof.Machine

/-! ## What the loader accepts and what it reports (R142 to R145) -/

theorem writeByte_of_lt {a : Nat} (inside : a < Config.memSize) (b : Byte) (m : Memory) :
    writeByte a b m = .ok (m.write a b) := if_pos inside

theorem writeByte_of_le {a : Nat} (outside : Config.memSize ≤ a) (b : Byte) (m : Memory) :
    writeByte a b m = .error .outOfRange := if_neg (Nat.not_lt.2 outside)

theorem loadBytes_of_tooLarge {bs : List Byte} (size : Config.maxImageSize < bs.length) (base : Nat) (m : Memory) :
    loadBytes bs base m = .error .imageTooLarge := if_pos size

theorem loadBytes_of_outOfRange {bs : List Byte} {base : Nat} (size : bs.length ≤ Config.maxImageSize)
    (range : Config.memSize < base + bs.length) (m : Memory) : loadBytes bs base m = .error .outOfRange := by
  rw [loadBytes, if_neg (Nat.not_lt.2 size), if_pos range]

/-- In phase `RESET` what the loader makes becomes memory. -/
theorem hostLoad_of_ok {s : State} {r : Except LoadError Memory} {m : Memory} (phase : s.phase = .reset)
    (ok : r = .ok m) : hostLoad r s = .next (s.setMem m) := by
  rw [hostLoad_of_reset phase, ok]

/-- In phase `RESET` a failure of the loader is reported. -/
theorem hostLoad_of_error {s : State} {r : Except LoadError Memory} {e : LoadError} (phase : s.phase = .reset)
    (err : r = .error e) : hostLoad r s = .next (s.report e) := by
  rw [hostLoad_of_reset phase, err]

/-! ## `write` (R142) -/

/-- Settles O15: below 0x10000 the byte is stored, and from there on the write is reported. -/
theorem hostWriteStoresOneByte : Obligations.HostWriteStoresOneByte := by
  intro s a b rest phase hs
  constructor
  · intro inside wf
    have stored := hostLoad_of_ok (s := s.setHostInput rest) phase (writeByte_of_lt inside b s.mem)
    exact ⟨_, (step_of_host hs).trans stored, fun x => Memory.read_write b x wf, rfl, rfl, rfl, rfl, rfl, rfl, rfl⟩
  · intro outside
    have reported := hostLoad_of_error (s := s.setHostInput rest) phase (writeByte_of_le outside b s.mem)
    exact ⟨_, (step_of_host hs).trans reported, rfl, rfl, rfl, rfl, rfl, rfl, rfl, rfl⟩

/-! ## `load_image` (R143 to R145) -/

/-- Inside the copied range a read answers the copied byte. -/
theorem Memory.read_copy_add {bs : List Byte} {m : Memory} {base i : Nat} (wf : m.wf = true)
    (range : base + bs.length ≤ Config.memSize) (inside : i < bs.length) :
    (m.copy base bs).read (base + i) = bs[i] := by
  rw [Memory.read_copy _ _ range wf, if_pos (Nat.le_add_right base i), Nat.add_sub_cancel_left,
    List.getElem?_eq_getElem inside, Option.getD_some]

/-- Outside the copied range a read answers the old byte. -/
theorem Memory.read_copy_of_outside {bs : List Byte} {m : Memory} {base a : Nat} (wf : m.wf = true)
    (range : base + bs.length ≤ Config.memSize) (outside : a < base ∨ base + bs.length ≤ a) :
    (m.copy base bs).read a = m.read a := by
  rw [Memory.read_copy _ _ range wf]
  split
  · rw [List.getElem?_eq_none (by omega), Option.getD_none]
  · rfl

/-- Settles O16: the accepted image is copied, and the copy keeps every byte outside its range. -/
theorem loadImageCopiesTheImage : Obligations.LoadImageCopiesTheImage := by
  intro s bs base rest phase hs wf size range
  have copied : loadBytes bs base s.mem = .ok (s.mem.copy base bs) := loadBytes_eq_ok.2 ⟨size, range, rfl⟩
  exact ⟨_, (step_of_host hs).trans (hostLoad_of_ok (s := s.setHostInput rest) phase copied),
    fun i inside => Memory.read_copy_add wf range inside, fun a outside => Memory.read_copy_of_outside wf range outside,
    rfl, rfl, rfl, rfl, rfl, rfl, rfl⟩

/-- Settles O17: the size is checked first, then the range, and either failure is only reported. -/
theorem loadImageFailsWithoutEffect : Obligations.LoadImageFailsWithoutEffect := by
  intro s bs base rest phase hs
  constructor
  · intro size
    have reported := hostLoad_of_error (s := s.setHostInput rest) phase (loadBytes_of_tooLarge size base s.mem)
    exact (step_of_host hs).trans reported
  · intro size range
    have reported := hostLoad_of_error (s := s.setHostInput rest) phase (loadBytes_of_outOfRange size range s.mem)
    exact (step_of_host hs).trans reported

/-! ## Reset (R140) -/

/-- A transition that raises `RUN` is the reset: STEP needs `RUN` set already, and nothing else writes it. -/
theorem resetComing_of_run_raised {s t : State} (h : step s = .next t) (halted : s.run = false)
    (running : t.run = true) : s.resetComing = true := by
  have notEnabled : ¬ s.StepEnabled := fun en => by simp [en.2.1] at halted
  obtain ⟨coming, -⟩ | ⟨-, run⟩ := step_keeps_ip_run_of_not_enabled h notEnabled
  · exact coming
  · simp [run, halted] at running

/-- Settles O2: the host's reset is the whole transition; a terminal phase stays under any other transition, and none
other raises `RUN`. -/
theorem resetFromAnyStateAndNothingElse : Obligations.ResetFromAnyStateAndNothingElse := by
  refine ⟨fun s coming => ?_, fun s t h terminal left => ?_, fun s t => resetComing_of_run_raised⟩
  · exact ⟨_, step_of_resetComing coming, resetLeavesTheSpecsValues⟩
  · by_contra noReset
    have stays := step_eq_afterTurn_of_terminal h terminal (Bool.eq_false_of_not_eq_true noReset)
    exact left (by rw [stays, State.afterTurn_phase])

/-! ## The placing of an instruction (R141, R59) -/

theorem wordBytes_length (n w : Nat) : (wordBytes n w).length = n := by
  induction n generalizing w with
  | zero => rfl
  | succ n ih => rw [wordBytes, List.length_append, ih, List.length_singleton]

/-- A table word of at most 16 bits is placed as two bytes. -/
theorem tableBytes_length {nbits : Nat} (short : nbits ≤ 16) (w : Nat) : (tableBytes nbits w).length = 2 := by
  rw [tableBytes, List.length_append, wordBytes_length, List.length_replicate]
  omega

/-- The placed bytes lie in memory. -/
theorem placeForFetch_ip_le (bytes : List Byte) (s : State) :
    (placeForFetch bytes s).ip.toNat + 2 ≤ Config.memSize := by
  simp only [placeForFetch]
  split
  · assumption
  · decide

theorem placeForFetch_stepEnabled (bytes : List Byte) (s : State) : (placeForFetch bytes s).StepEnabled := by
  refine ⟨rfl, rfl, ?_⟩
  cases s with
  | mk mem ip run phase cause out hostInput loadErrors => cases hostInput <;> rfl

/-- The bytes ahead of the next STEP are the two that were placed. -/
theorem bytesAhead_placeForFetch {bytes : List Byte} {s : State} (wf : s.mem.wf = true) (two : bytes.length = 2) :
    bytesAhead (placeForFetch bytes s) = bytes := by
  have room := placeForFetch_ip_le bytes s
  obtain ⟨b0, b1, rfl⟩ := List.length_eq_two.1 two
  have opcode : (placeForFetch [b0, b1] s).opcode = b0 :=
    Memory.read_copy_add (bs := [b0, b1]) (i := 0) wf room Nat.two_pos
  have offset : (placeForFetch [b0, b1] s).offset = b1 :=
    Memory.read_copy_add (bs := [b0, b1]) (i := 1) wf room Nat.one_lt_two
  rw [bytesAhead_of_lt (by simp only [Config.memSize] at room; omega), opcode, offset]

/-- A table word of an instruction decodes to it. -/
theorem decode_tableBytes_of_decodeTableWord {nbits w : Nat} {i : Instr} (word : decodeTableWord nbits w = some i) :
    ∃ rest, decode (tableBytes nbits w) = .ok (i, rest) := by
  rw [decodeTableWord_eq] at word
  cases answer : decode (tableBytes nbits w) with
  | error e => simp [answer, Except.toOption] at word
  | ok decoded =>
    obtain ⟨j, rest⟩ := decoded
    obtain rfl : j = i := by simpa [answer, Except.toOption] using word
    exact ⟨rest, rfl⟩

/-- Settles O25: the bytes ahead are those of the table word, and STEP runs what the decoder reads from them. -/
theorem placedWordIsRunNext : Obligations.PlacedWordIsRunNext := by
  intro s nbits w i wf short word
  obtain ⟨-, runs, -⟩ := stepRunsTheDecodedInstruction (s.withFetchWord nbits w) (placeForFetch_stepEnabled _ s)
  have ahead : bytesAhead (s.withFetchWord nbits w) = tableBytes nbits w :=
    bytesAhead_placeForFetch wf (tableBytes_length short w)
  obtain ⟨rest, decoded⟩ := decode_tableBytes_of_decodeTableWord word
  exact runs i rest (ahead.symm ▸ decoded)

end Sys2Proof.Machine
